-- ==== Sys2Proof/Word.lean ====
section
/-! DEFINITION. The widths of the block's values (spec/00_scope.md R9, R14): words of 32 bits, bytes of 8, the length counter of 64. -/

namespace Sys2Proof

/-- R9: "the word is 32 bits, unsigned". -/
abbrev Word := BitVec 32

/-- `UInt8` of R14: a payload, buffer or output byte. -/
abbrev Byte := BitVec 8

/-- `UInt64` of R14: the total-length accumulator and the length field (R11). -/
abbrev DWord := BitVec 64

end Sys2Proof
end

