-- ==== Sys2Proof/Config.lean ====
section
/-! DEFINITION. What an implementation of the block fixes (spec/00_scope.md R3, R6 to R13). No value of the spec is left free, so nothing here is opaque. -/

namespace Sys2Proof.Config

/-- R3: the name a model identifies the block by; there is no identification register. -/
def modelName : String := "t348-loader-sha256-core"

/-- R6 `BLOCK_LEN`: bytes of one compression input. -/
abbrev blockLen : Nat := 64

/-- R7 `OUT_LEN`: bytes of a digest. -/
abbrev outLen : Nat := 32

/-- R8 `PAD_OFFSET`: the offset of the length field in the final block (90_conflicts.md C1 keeps the value 56). -/
abbrev padOffset : Nat := 56

/-- R12: the least `NCTX` a block may have. -/
abbrev minNctx : Nat := 1

/-- R12: the largest `NCTX` a block may have; every 4-bit context index exists on such a block. -/
abbrev maxNctx : Nat := 16

/-- DESIGN CHOICE (log 1): the `NCTX` of `Machine.State.reset`; the spec leaves it OPEN (92_eei_decisions.md D8). -/
abbrev resetNctx : Nat := maxNctx

/-- R13 `MAX_CHUNK`: the most payload bytes of one UPDATE. -/
abbrev maxChunk : Nat := 65535

end Sys2Proof.Config
end

