-- ==== Sys2Proof/Syntax.lean ====
section
/-! DEFINITION. The commands of spec/opcode_table.json, the requests that carry them, and the names of the reasons a word is illegal (spec/30_encoding.md R80 to R92). -/

namespace Sys2Proof

/-- A context index as the 4-bit fields CTX and DST hold it (R82, R83). -/
abbrev CtxIx := Fin 16

/-- R80: one request on the command port, a 32-bit command word and its payload bytes, first byte first (20_memory.md R59). -/
structure Request where
  word    : Word
  payload : List Byte
  deriving DecidableEq, Repr

/-- The commands of R87 and R88, one constructor for each row of spec/opcode_table.json. -/
inductive Instr where
  /-- OP 1 (42_engine_commands.md R171). -/
  | create (ctx : CtxIx)
  /-- OP 2 (R172); the operand LEN is the number of payload bytes (30_encoding.md R85, R95; DEDUCED, log 5). -/
  | update (ctx : CtxIx) (ityp : BitVec 2) (data : List Byte)
  /-- OP 3 (R177). -/
  | digestInto (ctx : CtxIx) (outcap : BitVec 16)
  /-- OP 4 (R178). -/
  | digest (ctx : CtxIx)
  /-- OP 5 (R179): CTX is the source, DST the destination. -/
  | clone (src dst : CtxIx)
  /-- OP 6 (R180). -/
  | destroy (ctx : CtxIx)
  deriving DecidableEq, Repr

/-- Why a word is illegal (R91), in the order R90 tests; the block itself reports all of them as IllegalCommand (DESIGN CHOICE, log 7). -/
inductive Illegal where
  /-- RSV is not zero (R86). -/
  | reservedBits
  /-- CTX is not below NCTX (R89). -/
  | ctxRange
  /-- OP is 0 or 7 to 15 (R88). -/
  | opcode
  /-- A must-be-zero field of R87 is not zero. -/
  | mustBeZero
  /-- CLONE's DST is not below NCTX (R89). -/
  | dstRange
  deriving DecidableEq, Repr

/-- R90: "decode(cmd : UInt32, NCTX) : Illegal | Cmd". -/
inductive Decoded where
  | cmd (i : Instr)
  | illegal (why : Illegal)
  deriving DecidableEq, Repr

end Sys2Proof
end

