-- ==== Sys2Proof/WellFormed.lean ====
section
/-! DEFINITION. Which commands a block with `nctx` contexts has an encoding for (spec/30_encoding.md R85, R89). -/

namespace Sys2Proof

/-- R89: a context index names an existing context. -/
def CtxIx.inRange (nctx : Nat) (c : CtxIx) : Bool := decide (c.val < nctx)

/-- R85: LEN is 0..65535, so a payload has at most `MAX_CHUNK` bytes (00_scope.md R13). -/
def payloadFits (data : List Byte) : Bool := decide (data.length ≤ Config.maxChunk)

/-- The commands that have a legal word on a block of `nctx` contexts. -/
def Instr.wellFormed (nctx : Nat) : Instr → Bool
  | .create c       => CtxIx.inRange nctx c
  | .update c _ d   => CtxIx.inRange nctx c && payloadFits d
  | .digestInto c _ => CtxIx.inRange nctx c
  | .digest c       => CtxIx.inRange nctx c
  | .clone s d      => CtxIx.inRange nctx s && CtxIx.inRange nctx d
  | .destroy c      => CtxIx.inRange nctx c

end Sys2Proof
end

