-- ==== Sys2Proof/Decode.lean ====
section
/-! DEFINITION. The fields of a command word, payload framing, the total decoder of spec/30_encoding.md R90, and the encoder written from the same table (R80, R87, R88). -/

namespace Sys2Proof

/-! ## Fields (R80 to R86) -/

/-- R81. -/
def opField (w : Word) : BitVec 4 := w.extractLsb' 0 4
/-- R82. -/
def ctxField (w : Word) : CtxIx := (w.extractLsb' 4 4).toFin
/-- R83. -/
def dstField (w : Word) : CtxIx := (w.extractLsb' 8 4).toFin
/-- R84. -/
def itypField (w : Word) : BitVec 2 := w.extractLsb' 12 2
/-- R86. -/
def rsvField (w : Word) : BitVec 2 := w.extractLsb' 14 2
/-- R85: LEN or OUTCAP. -/
def immField (w : Word) : BitVec 16 := w.extractLsb' 16 16

/-! ## Payload framing (R93, R95) -/

/-- R93: the payload length, known "from the word alone", legal or not. -/
def payloadLen (w : Word) : Nat :=
  if opField w = 0x2#4 then (immField w).toNat else 0

/-- R95: the payload has exactly the bytes the word announces. -/
def Request.wellFormed (r : Request) : Bool :=
  decide (r.payload.length = payloadLen r.word)

/-! ## The decoder (R90) -/

/-- The must-be-zero fields of R87 that the commands share. -/
def dstZero (w : Word) : Bool := decide ((dstField w).val = 0)
def itypZero (w : Word) : Bool := decide (itypField w = 0#2)
def immZero (w : Word) : Bool := decide (immField w = 0#16)

/-- One row of R90's case: the command, if the row's must-be-zero fields are zero. -/
def whenZero (zero : Bool) (i : Instr) : Decoded :=
  if zero then .cmd i else .illegal .mustBeZero

/-- R90's `case OP of`, after the tests of RSV and CTX. -/
def decodeOp (nctx : Nat) (r : Request) : Decoded :=
  let w := r.word
  let c := ctxField w
  match (opField w).toNat with
  | 1 => whenZero (dstZero w && itypZero w && immZero w) (.create c)
  | 2 => whenZero (dstZero w) (.update c (itypField w) r.payload)
  | 3 => whenZero (dstZero w && itypZero w) (.digestInto c (immField w))
  | 4 => whenZero (dstZero w && itypZero w && immZero w) (.digest c)
  | 5 =>
    if CtxIx.inRange nctx (dstField w) then
      whenZero (itypZero w && immZero w) (.clone c (dstField w))
    else .illegal .dstRange
  | 6 => whenZero (dstZero w && itypZero w && immZero w) (.destroy c)
  | _ => .illegal .opcode

/-- R90: the total decoder; the payload of an UPDATE becomes the command's data. -/
def decode (nctx : Nat) (r : Request) : Decoded :=
  if rsvField r.word ≠ 0#2 then .illegal .reservedBits
  else if !(CtxIx.inRange nctx (ctxField r.word)) then .illegal .ctxRange
  else decodeOp nctx r

/-! ## The encoder (R80, R87, R88) -/

/-- R80: the word with these fields, RSV zero (R86). -/
def commandWord (imm : BitVec 16) (ityp : BitVec 2) (dst ctx : CtxIx) (op : BitVec 4) : Word :=
  imm ++ 0#2 ++ ityp ++ (BitVec.ofFin dst : BitVec 4) ++ (BitVec.ofFin ctx : BitVec 4) ++ op

/-- The request that carries a command: the word of R87's row and, for UPDATE, the payload. -/
def encode : Instr → Request
  | .create c       => ⟨commandWord 0 0 0 c 0x1, []⟩
  | .update c t d   => ⟨commandWord (BitVec.ofNat 16 d.length) t 0 c 0x2, d⟩
  | .digestInto c n => ⟨commandWord n 0 0 c 0x3, []⟩
  | .digest c       => ⟨commandWord 0 0 0 c 0x4, []⟩
  | .clone s d      => ⟨commandWord 0 0 d s 0x5, []⟩
  | .destroy c      => ⟨commandWord 0 0 0 c 0x6, []⟩

/-! ## The opcode table's numbering -/

/-- The request whose word is the low `nbits` bits of `w` and whose payload, if the word announces one, is zeros. -/
def tableRequest (nbits w : Nat) : Request :=
  let word : Word := BitVec.ofNat 32 (w % 2 ^ nbits)
  ⟨word, List.replicate (payloadLen word) 0⟩

/-- The command the decoder reads from a table word, on a block that has every context index (log 1). -/
def decodeTableWord (nbits w : Nat) : Option Instr :=
  match decode Config.maxNctx (tableRequest nbits w) with
  | .cmd i     => some i
  | .illegal _ => none

end Sys2Proof
end

