-- ==== Sys2Proof/Machine/State.lean ====
section
/-! DEFINITION. Everything the spec gives the block to hold (spec/10_state.md R20 to R39), as plain data, and its reset value. -/

namespace Sys2Proof.Machine

/-- Eight 32-bit words: the running words `A..H` of a context (R21) or the working registers `a..h` of the kernel (R30; `c` is the source's `c_`). -/
structure Words where
  a : Word
  b : Word
  c : Word
  d : Word
  e : Word
  f : Word
  g : Word
  h : Word
  deriving DecidableEq, Repr

/-- All eight words zero. -/
def Words.zero : Words := ⟨0, 0, 0, 0, 0, 0, 0, 0⟩

/-- The bytes of one block buffer, offsets 0..63 (20_memory.md R51): offset and byte, offsets rising, zero bytes not listed. An unlisted offset reads as 0x00, the byte every offset holds at reset (R39). -/
abbrev Memory := List Host.Cell

/-- R20: one hash context. -/
structure Context where
  /-- R21: `H[c][0..7]`, `a` being `H[c][0]`. -/
  h    : Words
  /-- R22: `BUF[c][0..63]`. -/
  buf  : Memory
  /-- R23: `POS[c]`, an integer 0..63. -/
  pos  : Fin 64
  /-- R24: `TLEN[c]`. -/
  tlen : DWord
  /-- R25: `FIN[c]`. -/
  fin  : Bool
  /-- R26: `DES[c]`. -/
  des  : Bool
  deriving DecidableEq, Repr

/-- R28: the one compression kernel. -/
structure Kernel where
  /-- R29: the message schedule `W[0..63]`. -/
  w    : Vector Word 64
  /-- R30: the working registers. -/
  regs : Words
  deriving DecidableEq, Repr

/-- 60_exceptions.md R210: the result codes. -/
inductive Code where
  | ok | invalidInputType | alreadyFinalized | destroyed | outputBufferTooSmall | illegalCommand
  deriving DecidableEq, Repr

/-- R35: the block's answer to one command. -/
structure Response where
  code : Code
  out  : List Byte
  deriving DecidableEq, Repr

/-- What the outside puts to the block (log 2). -/
inductive Input where
  /-- One request on the command port (30_encoding.md R80). -/
  | request (r : Request)
  /-- 70_reset_and_hazards.md R240: reset, with the command it cuts short if one was in progress. -/
  | reset (cut : Option Request)
  deriving DecidableEq, Repr

/-- The block and its two sides of the command port. -/
structure State where
  /-- R20: the contexts; their number is `NCTX` (log 1). -/
  ctxs      : List Context
  /-- R28. -/
  kernel    : Kernel
  /-- 20_memory.md R65: the inputs not yet taken, oldest first (DESIGN CHOICE, log 2). -/
  inputs    : List Input
  /-- R35 and 70_reset_and_hazards.md R247: the responses delivered so far, oldest first; no command reads them (DESIGN CHOICE, log 3). -/
  responses : List Response
  deriving DecidableEq, Repr

/-- 00_scope.md R12: `NCTX`. -/
def State.nctx (s : State) : Nat := s.ctxs.length

/-- The reasons the block stops with a fault: none, since "an error is a response code: there is no trap" (60_exceptions.md, R219). -/
inductive Fault where
  deriving DecidableEq, Repr

/-- The reasons a step is refused. -/
inductive Refusal where
  /-- Raised by `exec` for an instruction without a meaning; safe. No arm raises it. -/
  | notModelled (mnemonic : String)
  /-- Raised by `step` for a request whose payload is not the one its word announces: "a model refuses it: it has no step for it" (30_encoding.md R95); safe. -/
  | malformedRequest
  deriving DecidableEq, Repr

/-- R39: a context right after reset. -/
def Context.reset : Context :=
  { h := Words.zero, buf := [], pos := 0, tlen := 0, fin := false, des := true }

/-- R39: the kernel right after reset, and between PROCESS runs (R29, R30). -/
def Kernel.zero : Kernel := { w := Vector.replicate 64 0, regs := Words.zero }

/-- R39 and 70_reset_and_hazards.md R240 on a block of `nctx` contexts, nothing yet at its port. -/
def State.resetWith (nctx : Nat) : State :=
  { ctxs := List.replicate nctx Context.reset, kernel := Kernel.zero, inputs := [], responses := [] }

/-- The machine right after reset, with `NCTX` = 16 (DESIGN CHOICE, log 1). -/
def State.reset : State := State.resetWith Config.resetNctx

end Sys2Proof.Machine
end

