-- ==== Sys2Proof/Machine/Flags.lean ====
section
/-! DEFINITION. The block's only flags, FIN and DES (spec/10_state.md R25, R26, R36), the checks that read them (60_exceptions.md R212, R213, R217), and the response codes' numbers (R210). -/

namespace Sys2Proof.Machine

/-- R210: a code as the 3-bit field of the response. -/
def Code.bits : Code → BitVec 3
  | .ok                   => 0
  | .invalidInputType     => 1
  | .alreadyFinalized     => 2
  | .destroyed            => 3
  | .outputBufferTooSmall => 4
  | .illegalCommand       => 5

/-- R217 (2) and (3): the lifecycle error of a context, Destroyed before AlreadyFinalized. -/
def Context.lifecycleError (x : Context) : Option Code :=
  if x.des then some .destroyed
  else if x.fin then some .alreadyFinalized
  else none

/-- R215: UPDATE's own error, tested after the lifecycle errors (R217). -/
def itypError (ityp : BitVec 2) : Option Code :=
  if ityp ≠ 0#2 then some .invalidInputType else none

/-- R216: DIGEST_INTO's own error, tested after the lifecycle errors (R217). -/
def outcapError (outcap : BitVec 16) : Option Code :=
  if outcap.toNat < Config.outLen then some .outputBufferTooSmall else none

/-- R25: "Mark finished = true". -/
def Context.markFinished (x : Context) : Context := { x with fin := true }

/-- R26: the instance retired. -/
def Context.markDestroyed (x : Context) : Context := { x with des := true }

end Sys2Proof.Machine
end

