-- ==== Sys2Proof/Machine/Ops.lean ====
section
/-! DEFINITION. The shared operations: bytes of a block buffer, contexts, responses, raising an error (the block's only exception, spec/60_exceptions.md R214, R219), and reset. -/

namespace Sys2Proof.Machine

/-! ## Bytes of a block buffer (20_memory.md R51) -/

/-- The byte at offset `k`; an unlisted offset reads as 0x00. -/
def Memory.read : Memory → Fin 64 → Byte
  | [], _ => 0
  | (a, v) :: m, k => if a = k.val then v else Memory.read m k

/-- The cells but for offset `k`. -/
def Memory.erase (m : Memory) (k : Fin 64) : Memory := m.filter (fun x => x.1 != k.val)

/-- A cell put at its place in the rising order of offsets. -/
def Memory.insert : Memory → Fin 64 → Byte → Memory
  | [], k, v => [(k.val, v)]
  | (a, x) :: m, k, v =>
    if k.val < a then (k.val, v) :: (a, x) :: m else (a, x) :: Memory.insert m k v

/-- "A byte write `BUF[c][k] <- v` changes only that byte" (R51); 0x00 is what an unlisted offset reads as, so writing it lists nothing. -/
def Memory.write (m : Memory) (k : Fin 64) (v : Byte) : Memory :=
  if v = 0 then Memory.erase m k else Memory.insert (Memory.erase m k) k v

/-- One byte value written at each of a list of offsets, in order. -/
def Memory.fill (m : Memory) (ks : List (Fin 64)) (v : Byte) : Memory :=
  ks.foldl (fun m k => Memory.write m k v) m

/-- The buffer with `for k in 0..63: BUF[c][k] <- 0x00` done. -/
def Memory.zeroed : Memory := []

/-- The canonical form: offsets strictly rising and below 64, no zero byte listed. -/
def Memory.wf (m : Memory) : Bool :=
  decide (m.Pairwise (fun x y => x.1 < y.1)) && m.all (fun x => decide (x.1 < 64) && x.2 != 0)

/-! ## Contexts (10_state.md R20) -/

/-- Context `c`, if the block has it. -/
def State.ctx? (s : State) (c : CtxIx) : Option Context := s.ctxs[c.val]?

/-- Context `c` replaced; no other context changes (20_memory.md R70). -/
def State.setCtx (s : State) (c : CtxIx) (x : Context) : State :=
  { s with ctxs := s.ctxs.set c.val x }

/-- The kernel replaced. -/
def State.setKernel (s : State) (k : Kernel) : State := { s with kernel := k }

/-- The running words replaced (10_state.md R21). -/
def Context.setH (x : Context) (h : Words) : Context := { x with h := h }

/-- The buffer replaced (R22). -/
def Context.setBuf (x : Context) (m : Memory) : Context := { x with buf := m }

/-- The cursor replaced (R23). -/
def Context.setPos (x : Context) (p : Fin 64) : Context := { x with pos := p }

/-- The length counter replaced (R24). -/
def Context.setTlen (x : Context) (n : DWord) : Context := { x with tlen := n }

/-! ## Ending a command (10_state.md R35) -/

/-- `respond(code, out)`: the response is delivered after the responses of all earlier commands (20_memory.md R65). -/
def State.respond (s : State) (code : Code) (out : List Byte) : State :=
  { s with responses := s.responses ++ [{ code := code, out := out }] }

/-- `raise E`: the command ends with E's code and no bytes, and nothing else changes (60_exceptions.md R214, R219). There is no return: the next command is taken like any other (R220). -/
def State.raise (s : State) (e : Code) : Host.Outcome State Fault Refusal :=
  .next (s.respond e [])

/-- `respond(OK, out)` on the state a command built. -/
def State.succeed (s : State) (out : List Byte) : Host.Outcome State Fault Refusal :=
  .next (s.respond .ok out)

/-- A command on context `c`; without such a context the command is illegal (30_encoding.md R89; decoding lets none through; DESIGN CHOICE, log 6). -/
def State.withCtx (s : State) (c : CtxIx) (f : Context → Host.Outcome State Fault Refusal) :
    Host.Outcome State Fault Refusal :=
  match s.ctx? c with
  | some x => f x
  | none   => s.raise .illegalCommand

/-- The first error that applies, the list being in R217's order. -/
def firstError : List (Option Code) → Option Code
  | []           => none
  | some e :: _  => some e
  | none :: rest => firstError rest

/-! ## Reset (70_reset_and_hazards.md R240) -/

/-- R240: every piece of writable state takes its reset value; what the host has not yet sent and what it has already received are not the block's. -/
def State.hardReset (s : State) : State :=
  { State.resetWith s.nctx with inputs := s.inputs, responses := s.responses }

end Sys2Proof.Machine
end

