-- ==== Sys2Proof/Machine/Operands.lean ====
section
/-! DEFINITION. The operand forms of the block's data: the big-endian byte views of spec/40_word_primitives.md R130 to R133 and 20_memory.md R56 to R58. -/

namespace Sys2Proof.Machine

/-- Four bytes as a word, the first the most significant (R56). -/
def wordOfBytes (b0 b1 b2 b3 : Byte) : Word := b0 ++ b1 ++ b2 ++ b3

/-- A word as four bytes, the most significant first (R58). -/
def bytesOfWord (w : Word) : List Byte :=
  [w.extractLsb' 24 8, w.extractLsb' 16 8, w.extractLsb' 8 8, w.extractLsb' 0 8]

/-- Byte `k` of a 64-bit value, byte 0 the most significant: `v[63 - 8k : 56 - 8k]` (R131). -/
def byteOfDWord (v : DWord) (k : Fin 8) : Byte := v.extractLsb' (56 - 8 * k.val) 8

/-- R130: `be32_load(BUF, 4i)`. -/
def be32Load (m : Memory) (i : Fin 16) : Word :=
  wordOfBytes (m.read ⟨4 * i.val, by omega⟩) (m.read ⟨4 * i.val + 1, by omega⟩)
    (m.read ⟨4 * i.val + 2, by omega⟩) (m.read ⟨4 * i.val + 3, by omega⟩)

/-- R133: `byte_store(BUF, k, v)`. -/
def byteStore (m : Memory) (k : Fin 64) (v : Byte) : Memory := m.write k v

/-- R57: the offset of byte `k` of the length field, 56..63. -/
def lenOffset (k : Fin 8) : Fin 64 := ⟨Config.padOffset + k.val, by unfold Config.padOffset; omega⟩

/-- R131: `be64_store(BUF, 56, v)`. -/
def be64Store (m : Memory) (v : DWord) : Memory :=
  (List.finRange 8).foldl (fun m k => byteStore m (lenOffset k) (byteOfDWord v k)) m

/-- R132 for every `j` in 0..7: the running words as the 32 digest bytes (20_memory.md R58). -/
def digestBytes (h : Words) : List Byte :=
  bytesOfWord h.a ++ bytesOfWord h.b ++ bytesOfWord h.c ++ bytesOfWord h.d ++
    bytesOfWord h.e ++ bytesOfWord h.f ++ bytesOfWord h.g ++ bytesOfWord h.h

end Sys2Proof.Machine
end

