-- ==== Sys2Proof/Machine/Primitives.lean ====
section
/-! DEFINITION. The 32-bit word primitives and the six SHA-256 functions (spec/40_word_primitives.md R110 to R123). -/

namespace Sys2Proof.Machine

/-- R110: addition modulo 2^32, no carry recorded. -/
def add32 (x y : Word) : Word := x + y

/-- R114: the 32-bit right rotation, bit `k` of the result being bit `(k + n) mod 32` of `x`. -/
def rotr (x : Word) (n : Nat) : Word := (x >>> (n % 32)) ||| (x <<< (32 - n % 32))

/-- R115: the zero-filling right shift `x >>> n`. -/
def shr (x : Word) (n : Nat) : Word := x >>> n

/-- R118, the source's `σ0`. -/
def sigma0 (x : Word) : Word := rotr x 7 ^^^ rotr x 18 ^^^ shr x 3

/-- R119, the source's `σ1`. -/
def sigma1 (x : Word) : Word := rotr x 17 ^^^ rotr x 19 ^^^ shr x 10

/-- R120, the source's `Σ0`. -/
def bigSigma0 (x : Word) : Word := rotr x 2 ^^^ rotr x 13 ^^^ rotr x 22

/-- R121, the source's `Σ1`. -/
def bigSigma1 (x : Word) : Word := rotr x 6 ^^^ rotr x 11 ^^^ rotr x 25

/-- R122, the bitwise choice (the source's `Chi`). -/
def choice (e f g : Word) : Word := (e &&& f) ^^^ (~~~e &&& g)

/-- R123, the bitwise majority. -/
def majority (a b c : Word) : Word := (a &&& b) ^^^ (a &&& c) ^^^ (b &&& c)

end Sys2Proof.Machine
end

