-- ==== Sys2Proof/Machine/Compression.lean ====
section
/-! DEFINITION. The compression kernel: schedule, rounds, final addition, cleanup and PROCESS (spec/41_compression_kernel.md R143 to R152). -/

namespace Sys2Proof.Machine

/-- R143: `W[0..15]` from the block; the other entries stay as they are. -/
def scheduleLoad (m : Memory) (w : Vector Word 64) : Vector Word 64 :=
  (List.finRange 16).foldl (fun w i => w.set i.val (be32Load m i)) w

/-- R144's right side for the entry `16 + t`. -/
def scheduleNext (w : Vector Word 64) (t : Fin 48) : Word :=
  add32 (add32 (add32 (sigma1 w[14 + t.val]) w[9 + t.val]) (sigma0 w[1 + t.val])) w[t.val]

/-- R144: `W[16..63]`, in rising order. -/
def scheduleExpand (w : Vector Word 64) : Vector Word 64 :=
  (List.finRange 48).foldl (fun w t => w.set (16 + t.val) (scheduleNext w t)) w

/-- R146, the first temporary. -/
def roundT1 (r : Words) (k w : Word) : Word :=
  add32 (add32 (add32 (add32 r.h (bigSigma1 r.e)) (choice r.e r.f r.g)) k) w

/-- R146, the second temporary. -/
def roundT2 (r : Words) : Word := add32 (bigSigma0 r.a) (majority r.a r.b r.c)

/-- R146 and R147: one round with round constant `k` and schedule word `w`. -/
def roundStep (r : Words) (k w : Word) : Words :=
  { a := add32 (roundT1 r k w) (roundT2 r), b := r.a, c := r.b, d := r.c,
    e := add32 r.d (roundT1 r k w), f := r.e, g := r.f, h := r.g }

/-- R150: rounds 0 to 63 in order, over a complete schedule. -/
def rounds (w : Vector Word 64) (r : Words) : Words :=
  (List.finRange 64).foldl (fun r i => roundStep r (roundConstant i) w[i.val]) r

/-- R148: word by word addition modulo 2^32. -/
def Words.add (x y : Words) : Words :=
  { a := add32 x.a y.a, b := add32 x.b y.b, c := add32 x.c y.c, d := add32 x.d y.d,
    e := add32 x.e y.e, f := add32 x.f y.f, g := add32 x.g y.g, h := add32 x.h y.h }

/-- R149: the cleanup at the end of every PROCESS. -/
def Kernel.cleanup (_ : Kernel) : Kernel := Kernel.zero

/-- A context and the shared kernel, the state a command on one context works on (20_memory.md R70). -/
abbrev Work := Context × Kernel

/-- R143 to R147: the kernel with the block's schedule and its 64 rounds done. -/
def Kernel.compress (k : Kernel) (x : Context) : Kernel :=
  let w := scheduleExpand (scheduleLoad x.buf k.w)
  { w := w, regs := rounds w x.h }

/-- R152: `PROCESS(c)`; of the context only `H` is written. -/
def process (s : Work) : Work :=
  let k := s.2.compress s.1
  (s.1.setH (s.1.h.add k.regs), k.cleanup)

end Sys2Proof.Machine
end

