-- ==== Sys2Proof/Machine/Engine.lean ====
section
/-! DEFINITION. What the commands share: absorbing payload bytes (spec/42_engine_commands.md R172), finalization (R174 to R176), and the scrub of DESTROY and DIGEST (R178, R180). -/

namespace Sys2Proof.Machine

/-- R172, the body of the loop: one payload byte, and PROCESS when the buffer is full. -/
def absorbByte (s : Work) (v : Byte) : Work :=
  let x := s.1.setBuf (byteStore s.1.buf s.1.pos v)
  if s.1.pos.val = 63 then
    let t := process (x, s.2)
    (t.1.setPos 0, t.2)
  else
    (x.setPos (s.1.pos + 1), s.2)

/-- R172, the loop over the payload. -/
def absorb (s : Work) (data : List Byte) : Work := data.foldl absorbByte s

/-- R172: the loop, then `TLEN[c] <- TLEN[c] +64 zext_64(LEN)`. -/
def updateWork (s : Work) (data : List Byte) : Work :=
  let t := absorb s data
  (t.1.setTlen (t.1.tlen + BitVec.ofNat 64 data.length), t.2)

/-- R176: `LENFIELD`, the bit count modulo 2^64. -/
def lenField (tlen : DWord) : DWord := ((tlen.setWidth 67) * 8#67).setWidth 64

/-- The offsets `q..63` in order. -/
def offsetsFrom (q : Nat) : List (Fin 64) := (List.finRange 64).filter (fun k => decide (q ≤ k.val))

/-- R174: the 0x80 byte at `POS` and zeros after it. -/
def padded (x : Context) : Context :=
  x.setBuf ((byteStore x.buf x.pos 0x80).fill (offsetsFrom (x.pos.val + 1)) 0)

/-- R175: no room for the length field after the 0x80 byte. -/
def needsExtraBlock (pos : Fin 64) : Bool := decide (Config.blockLen - (pos.val + 1) < 8)

/-- R174, the conditional: compress the full block and start a zeroed one. -/
def extraBlock (s : Work) (pos : Fin 64) : Work :=
  if needsExtraBlock pos then
    let t := process s
    (t.1.setBuf Memory.zeroed, t.2)
  else s

/-- R174: `FINALIZE(c)` but for its result, which is `digestBytes` of the running words it leaves. -/
def finalize (s : Work) : Work :=
  let t := extraBlock (padded s.1, s.2) s.1.pos
  let u := process (t.1.setBuf (be64Store t.1.buf (lenField t.1.tlen)), t.2)
  (u.1.markFinished, u.2)

/-- R178 and R180: running words and buffer zero, DES set. -/
def Context.scrub (x : Context) : Context :=
  ((x.setH Words.zero).setBuf Memory.zeroed).markDestroyed

/-- R171: a fresh engine. -/
def Context.created : Context :=
  { h := iv, buf := Memory.zeroed, pos := 0, tlen := 0, fin := false, des := false }

end Sys2Proof.Machine
end

