-- ==== Sys2Proof/Machine/Commands.lean ====
section
/-! DEFINITION. The meaning of each command (spec/42_engine_commands.md R171, R172, R177 to R180). -/

namespace Sys2Proof.Machine

/-- R171 CREATE. -/
def execCreate (c : CtxIx) (s : State) : Host.Outcome State Fault Refusal :=
  s.withCtx c fun _ => (s.setCtx c Context.created).succeed []

/-- R172 UPDATE. -/
def execUpdate (c : CtxIx) (ityp : BitVec 2) (data : List Byte) (s : State) :
    Host.Outcome State Fault Refusal :=
  s.withCtx c fun x =>
    match firstError [x.lifecycleError, itypError ityp] with
    | some e => s.raise e
    | none =>
      let t := updateWork (x, s.kernel) data
      ((s.setCtx c t.1).setKernel t.2).succeed []

/-- R177 DIGEST_INTO. -/
def execDigestInto (c : CtxIx) (outcap : BitVec 16) (s : State) : Host.Outcome State Fault Refusal :=
  s.withCtx c fun x =>
    match firstError [x.lifecycleError, outcapError outcap] with
    | some e => s.raise e
    | none =>
      let t := finalize (x, s.kernel)
      ((s.setCtx c t.1).setKernel t.2).succeed (digestBytes t.1.h)

/-- R178 DIGEST. -/
def execDigest (c : CtxIx) (s : State) : Host.Outcome State Fault Refusal :=
  s.withCtx c fun x =>
    match firstError [x.lifecycleError] with
    | some e => s.raise e
    | none =>
      let t := finalize (x, s.kernel)
      ((s.setCtx c t.1.scrub).setKernel t.2).succeed (digestBytes t.1.h)

/-- R179 CLONE. -/
def execClone (src dst : CtxIx) (s : State) : Host.Outcome State Fault Refusal :=
  s.withCtx src fun x => s.withCtx dst fun _ => (s.setCtx dst x).succeed []

/-- R180 DESTROY. -/
def execDestroy (c : CtxIx) (s : State) : Host.Outcome State Fault Refusal :=
  s.withCtx c fun x => (s.setCtx c x.scrub).succeed []

end Sys2Proof.Machine
end

