-- ==== Sys2Proof/Machine/Dispatch.lean ====
section
/-! DEFINITION. One arm for each command (spec/30_encoding.md R88). -/

namespace Sys2Proof.Machine

def exec (i : Instr) (s : State) : Host.Outcome State Fault Refusal :=
  match i with
  | .create c => Sys2Proof.Machine.execCreate c s
  | .update c ityp data => Sys2Proof.Machine.execUpdate c ityp data s
  | .digestInto c outcap => Sys2Proof.Machine.execDigestInto c outcap s
  | .digest c => Sys2Proof.Machine.execDigest c s
  | .clone src dst => Sys2Proof.Machine.execClone src dst s
  | .destroy c => Sys2Proof.Machine.execDestroy c s

end Sys2Proof.Machine
end

