-- ==== Sys2Proof/Machine/Step.lean ====
section
/-! DEFINITION. The command cycle (spec/42_engine_commands.md R170): one step takes one input. -/

namespace Sys2Proof.Machine

/-- R170 on a well-formed request already taken from the port. -/
def runRequest (r : Request) (s : State) : Host.Outcome State Fault Refusal :=
  match decode s.nctx r with
  | .illegal _ => s.raise .illegalCommand
  | .cmd i     => exec i s

/-- One step: the oldest input is taken. An empty port leaves the state unchanged (60_exceptions.md R219, R227; log 2), a malformed request has no step (30_encoding.md R95), and a reset cuts whatever command was in progress (70_reset_and_hazards.md R240). -/
def step (s : State) : Host.Outcome State Fault Refusal :=
  match s.inputs with
  | [] => .next s
  | .reset _ :: rest => .next { s with inputs := rest }.hardReset
  | .request r :: rest =>
    if r.wellFormed then runRequest r { s with inputs := rest }
    else .refused .malformedRequest

/-- The state with one table word's request next at the port, before whatever stands there (log 2). -/
def State.withFetchWord (s : State) (nbits w : Nat) : State :=
  { s with inputs := .request (tableRequest nbits w) :: s.inputs }

end Sys2Proof.Machine
end

