-- ==== Sys2Proof/Safety.lean ====
section
/-! DEFINITION. The terms claims use: the invariant of the block (spec/10_state.md R27), a reference SHA-256 written over byte lists and independent of the kernel's registers (42_engine_commands.md R174 to R176, 41_compression_kernel.md R150), the stream a context has absorbed (10_state.md R27(c)), what of a state the outside can tell (10_state.md R38), and the lifecycle (42_engine_commands.md R181). -/

namespace Sys2Proof

/-! ## Commands and the contexts they name (10_state.md R34, 20_memory.md R70) -/

/-- The operand CTX (30_encoding.md R82); for CLONE the source. -/
def Instr.ctx : Instr → CtxIx
  | .create c | .update c _ _ | .digestInto c _ | .digest c | .destroy c | .clone c _ => c

/-- The contexts a command reads or writes. -/
def Instr.named : Instr → List CtxIx
  | .create c | .update c _ _ | .digestInto c _ | .digest c | .destroy c => [c]
  | .clone s d => [s, d]

/-- The context a command writes. -/
def Instr.target : Instr → CtxIx
  | .create c | .update c _ _ | .digestInto c _ | .digest c | .destroy c => c
  | .clone _ d => d

end Sys2Proof

namespace Sys2Proof.Machine

/-! ## Views of a context -/

/-- The eight words in order, `H[c][0]` first. -/
def Words.toList (x : Words) : List Word := [x.a, x.b, x.c, x.d, x.e, x.f, x.g, x.h]

/-- All 64 bytes of a block buffer, offset 0 first. -/
def Memory.bytes (m : Memory) : List Byte := (List.finRange 64).map m.read

/-- R23: the valid bytes `BUF[c][0 .. POS[c]-1]`. -/
def Context.validBytes (x : Context) : List Byte := x.buf.bytes.take x.pos.val

/-! ## The invariant -/

/-- What holds of every context between commands: its buffer is canonical (log 4), `POS = TLEN mod 64` (R27(d)), and a destroyed context holds no running word and no buffer byte (42_engine_commands.md R180, 70_reset_and_hazards.md R241). -/
abbrev Context.Inv (x : Context) : Prop :=
  x.buf.wf = true ∧ x.pos.val = x.tlen.toNat % 64 ∧
    (x.des = true → x.h = Words.zero ∧ x.buf = Memory.zeroed)

/-- R35: an answer carries 32 bytes or none, and bytes only with OK. -/
abbrev Response.Inv (r : Response) : Prop :=
  r.out = [] ∨ (r.code = .ok ∧ r.out.length = Config.outLen)

/-- What holds of the block between commands: `NCTX` is legal (00_scope.md R12), the kernel scratch is zero (10_state.md R29, R30), every context and every answer is as above. -/
abbrev State.Inv (s : State) : Prop :=
  Config.minNctx ≤ s.nctx ∧ s.nctx ≤ Config.maxNctx ∧ s.kernel = Kernel.zero ∧
    (∀ x ∈ s.ctxs, x.Inv) ∧ (∀ r ∈ s.responses, r.Inv)

/-! ## What the outside can tell (10_state.md R38) -/

/-- Two contexts no response can tell apart: equal DES; if live, equal FIN and H; if live and unfinished, equal POS, TLEN and valid bytes too. -/
def Context.SameOutside (x y : Context) : Prop :=
  x.des = y.des ∧
    (x.des = false → x.fin = y.fin ∧ x.h = y.h ∧
      (x.fin = false → x.pos = y.pos ∧ x.tlen = y.tlen ∧ x.validBytes = y.validBytes))

/-- Two states no response can tell apart; nothing is said of the kernel scratch (R38(d)). -/
def State.SameOutside (s t : State) : Prop :=
  List.Forall₂ Context.SameOutside s.ctxs t.ctxs ∧ s.inputs = t.inputs ∧ s.responses = t.responses

/-- The frame of a command that writes context `c` only (R34, R70); the kernel scratch and the answers are not spoken of. -/
def State.OnlyTouches (s t : State) (c : CtxIx) : Prop :=
  t.inputs = s.inputs ∧ t.nctx = s.nctx ∧ ∀ d, d ≠ c → t.ctx? d = s.ctx? d

/-! ## The lifecycle (42_engine_commands.md R181) -/

/-- R181: "Behavioural states". -/
inductive Life where
  | dead | active | finished
  deriving DecidableEq, Repr

/-- R181: `DEAD` is `DES = 1` with any `FIN`. -/
def Context.life (x : Context) : Life :=
  if x.des then .dead else if x.fin then .finished else .active

/-- R181's table: the state of the written context and the response code, from the state of the context CTX names. -/
def lifecycleRow : Instr → Life → Life × Code
  | .create _,      _         => (.active, .ok)
  | .update ..,     .dead     => (.dead, .destroyed)
  | .update _ t _,  .active   => (.active, if t = 0#2 then .ok else .invalidInputType)
  | .update ..,     .finished => (.finished, .alreadyFinalized)
  | .digestInto .., .dead     => (.dead, .destroyed)
  | .digestInto _ n, .active  =>
    if 32 ≤ n.toNat then (.finished, .ok) else (.active, .outputBufferTooSmall)
  | .digestInto .., .finished => (.finished, .alreadyFinalized)
  | .digest _,      .dead     => (.dead, .destroyed)
  | .digest _,      .active   => (.dead, .ok)
  | .digest _,      .finished => (.finished, .alreadyFinalized)
  | .destroy _,     _         => (.dead, .ok)
  | .clone _ _,     l         => (l, .ok)

/-- The commands whose success answers with a digest (10_state.md R35). -/
def answersDigest : Instr → Bool
  | .digestInto .. | .digest _ => true
  | .create _ | .update .. | .clone .. | .destroy _ => false

/-- 60_exceptions.md R218's table: the codes a command word with this opcode can be answered with. -/
def canReport (op : Nat) : List Code :=
  match op with
  | 2 => [.ok, .invalidInputType, .alreadyFinalized, .destroyed, .illegalCommand]
  | 3 => [.ok, .alreadyFinalized, .destroyed, .outputBufferTooSmall, .illegalCommand]
  | 4 => [.ok, .alreadyFinalized, .destroyed, .illegalCommand]
  | _ => [.ok, .illegalCommand]

end Sys2Proof.Machine

namespace Sys2Proof.Reference

open Sys2Proof.Machine

/-! ## A reference SHA-256 over byte lists -/

/-- The bytes four at a time as big-endian words (20_memory.md R56). -/
def wordsOf : List Byte → List Word
  | b0 :: b1 :: b2 :: b3 :: rest => (b0 ++ b1 ++ b2 ++ b3) :: wordsOf rest
  | _ => []

/-- 41_compression_kernel.md R144 on a window of the last 16 schedule words, oldest first. -/
def nextWord (win : List Word) : Word :=
  let s0 := fun x : Word => x.rotateRight 7 ^^^ x.rotateRight 18 ^^^ (x >>> 3)
  let s1 := fun x : Word => x.rotateRight 17 ^^^ x.rotateRight 19 ^^^ (x >>> 10)
  s1 (win.getD 14 0) + win.getD 9 0 + s0 (win.getD 1 0) + win.getD 0 0

/-- R146 and R147, the choice and majority written with "or". -/
def round (r : Words) (k w : Word) : Words :=
  let ch := (r.e &&& r.f) ||| (~~~r.e &&& r.g)
  let maj := (r.a &&& r.b) ||| (r.a &&& r.c) ||| (r.b &&& r.c)
  let S1 := r.e.rotateRight 6 ^^^ r.e.rotateRight 11 ^^^ r.e.rotateRight 25
  let S0 := r.a.rotateRight 2 ^^^ r.a.rotateRight 13 ^^^ r.a.rotateRight 22
  let t1 := r.h + S1 + ch + k + w
  ⟨t1 + (S0 + maj), r.a, r.b, r.c, r.d + t1, r.e, r.f, r.g⟩

/-- R150: "A datapath that computes `W[i]` just before round `i`", one round for each constant left. -/
def justInTime : List Word → List Word → Words → Words
  | [], _, r => r
  | k :: ks, win, r => justInTime ks (win.drop 1 ++ [nextWord win]) (round r k (win.getD 0 0))

/-- The compression of one 64-byte block into the running words (R148). -/
def compress (h : Words) (block : List Byte) : Words :=
  let r := justInTime roundConstants (wordsOf block) h
  ⟨h.a + r.a, h.b + r.b, h.c + r.c, h.d + r.d, h.e + r.e, h.f + r.f, h.g + r.g, h.h + r.h⟩

/-- Block `n` of a byte stream, bytes `64n .. 64n+63` (42_engine_commands.md R173(c)). -/
def block (m : List Byte) (n : Nat) : List Byte := (m.drop (64 * n)).take 64

/-- The running words after the whole blocks of a stream. -/
def foldBlocks (h : Words) (m : List Byte) : Words :=
  ((List.range (m.length / 64)).map (block m)).foldl compress h

/-- What a stream leaves after its whole blocks. -/
def rest (m : List Byte) : List Byte := m.drop (64 * (m.length / 64))

/-- A 64-bit value as 8 bytes, the most significant first (20_memory.md R57). -/
def bytesOfDWord (v : DWord) : List Byte :=
  (List.range 8).map fun k => v.extractLsb' (56 - 8 * k) 8

/-- The words as bytes, the most significant byte of each first (20_memory.md R58). -/
def bytesOfWords (x : Words) : List Byte :=
  x.toList.flatMap fun w => (List.range 4).map fun k => w.extractLsb' (24 - 8 * k) 8

/-- The padding after `n` bytes whose bit count modulo 2^64 is `bits`: 0x80, zeros, the length field (42_engine_commands.md R174). -/
def padding (n : Nat) (bits : DWord) : List Byte :=
  0x80 :: List.replicate ((119 - n % 64) % 64) 0 ++ bytesOfDWord bits

/-- R174, R175 by their layouts: the one or two blocks finalization compresses after the valid bytes `v`. -/
def finalBlocks (v : List Byte) (bits : DWord) : List (List Byte) :=
  if v.length ≤ 55 then [v ++ 0x80 :: List.replicate (55 - v.length) 0 ++ bytesOfDWord bits]
  else [v ++ 0x80 :: List.replicate (63 - v.length) 0, List.replicate 56 0 ++ bytesOfDWord bits]

/-- R176: the bit count `{TLEN[60:0], 0b000}`. -/
def bitCount (tlen : DWord) : DWord := tlen.extractLsb' 0 61 ++ 0#3

/-- SHA-256 of a message, its bit count taken modulo 2^64 (R176, 93_implementation_defined.md B4). -/
def sha256 (m : List Byte) : List Byte :=
  bytesOfWords (foldBlocks iv (m ++ padding m.length (BitVec.ofNat 64 (8 * m.length))))

/-- 10_state.md R27(c), (d): context `x` is live, unfinished, and has absorbed exactly the stream `m` since it was created. -/
def Holds (x : Context) (m : List Byte) : Prop :=
  x.des = false ∧ x.fin = false ∧ x.h = foldBlocks iv m ∧ x.validBytes = rest m ∧
    x.pos.val = m.length % 64 ∧ x.tlen = BitVec.ofNat 64 m.length

/-! ## Illegal words by number (30_encoding.md R91) -/

/-- R91, from the word's number alone: unassigned OP, nonzero RSV, CTX out of range, a nonzero must-be-zero field of R87, CLONE's DST out of range. -/
def illegalWord (nctx : Nat) (w : Word) : Prop :=
  let op := w.toNat % 16
  let ctx := w.toNat / 16 % 16
  let dst := w.toNat / 256 % 16
  let ityp := w.toNat / 4096 % 4
  let rsv := w.toNat / 16384 % 4
  let imm := w.toNat / 65536
  op = 0 ∨ 7 ≤ op ∨ rsv ≠ 0 ∨ nctx ≤ ctx ∨ (op ≠ 5 ∧ dst ≠ 0) ∨ (op ≠ 2 ∧ ityp ≠ 0) ∨
    (op ≠ 2 ∧ op ≠ 3 ∧ imm ≠ 0) ∨ (op = 5 ∧ nctx ≤ dst)

end Sys2Proof.Reference
end

