-- ==== Sys2Proof/Certificates/Slice0/Obligations.lean ====
section
/-! DEFINITION. What the provers are asked to prove of the block; OBLIGATIONS.json says which rule of spec/ each states. -/

open Sys2Proof Sys2Proof.Machine

/-! ## The command cycle and encoding -/

/-- 30_encoding.md section 6: words written out from the field table. -/
def Obligations.WrittenWordsDecode : Prop :=
  decode 2 ⟨0x00000001, []⟩ = .cmd (.create 0) ∧
  decode 2 ⟨0x00030002, [0x61, 0x62, 0x63]⟩ = .cmd (.update 0 0 [0x61, 0x62, 0x63]) ∧
  decode 2 ⟨0x00001002, []⟩ = .cmd (.update 0 1 []) ∧
  decode 2 ⟨0x00200013, []⟩ = .cmd (.digestInto 1 32) ∧
  decode 2 ⟨0x00000004, []⟩ = .cmd (.digest 0) ∧
  decode 2 ⟨0x00000105, []⟩ = .cmd (.clone 0 1) ∧
  decode 2 ⟨0x00000016, []⟩ = .cmd (.destroy 1) ∧
  decode 2 ⟨0x00000000, []⟩ = .illegal .opcode ∧
  decode 2 ⟨0x00000007, []⟩ = .illegal .opcode ∧
  decode 2 ⟨0x00010001, []⟩ = .illegal .mustBeZero ∧
  decode 2 ⟨0x00004002, []⟩ = .illegal .reservedBits

/-- R170: a step on a well-formed request whose word decodes to a command is `exec` of that command, the request taken from the port. -/
def Obligations.StepRunsTheDecodedCommand : Prop :=
  ∀ (s : State) (r : Request) (rest : List Input) (i : Instr),
    s.inputs = .request r :: rest → r.wellFormed = true → decode s.nctx r = .cmd i →
    step s = exec i { s with inputs := rest }

/-- R80: each field of a command word stands at its bits, by number. -/
def Obligations.FieldsStandAtTheirBits : Prop :=
  ∀ (imm : BitVec 16) (ityp : BitVec 2) (dst ctx : CtxIx) (op : BitVec 4),
    (commandWord imm ityp dst ctx op).toNat =
      imm.toNat * 65536 + ityp.toNat * 4096 + dst.val * 256 + ctx.val * 16 + op.toNat

/-- R95: a request at the port has no step exactly when its payload is not the one its word announces. -/
def Obligations.MalformedRequestHasNoStep : Prop :=
  ∀ (s : State) (r : Request) (rest : List Input), s.inputs = .request r :: rest →
    (step s = .refused .malformedRequest ↔
      r.payload.length ≠ if r.word.toNat % 16 = 2 then r.word.toNat / 65536 else 0)

/-- The model's choice, log 2, after 60_exceptions.md R219 and R227: with an empty port the block waits, its state unchanged. -/
def Obligations.EmptyPortWaits : Prop :=
  ∀ s : State, s.inputs = [] → step s = .next s

/-- R91: `decode` answers illegal for exactly the words the rule lists. -/
def Obligations.IllegalWordsAreTheListedOnes : Prop :=
  ∀ (nctx : Nat) (r : Request),
    (∃ why, decode nctx r = .illegal why) ↔ Reference.illegalWord nctx r.word

/-- R91: a well-formed request whose word is on R91's list, and no other, is answered IllegalCommand by a step that takes the request and changes nothing else; its payload is discarded with it. -/
def Obligations.IllegalWordChangesNothing : Prop :=
  ∀ (s : State) (r : Request) (rest : List Input),
    s.inputs = .request r :: rest → r.wellFormed = true →
    ((∃ why, decode s.nctx r = .illegal why) ↔ Reference.illegalWord s.nctx r.word) ∧
    (Reference.illegalWord s.nctx r.word →
      step s = .next { s with inputs := rest, responses := s.responses ++ [⟨.illegalCommand, []⟩] })

/-- R89: an index at or above NCTX makes the word illegal whatever its other fields; and a word that is legal on a block with every index is legal, as the same command, exactly where its indices are below NCTX. -/
def Obligations.ContextRangeIsByValue : Prop :=
  (∀ (nctx : Nat) (r : Request),
    (nctx ≤ r.word.toNat / 16 % 16 ∨ (r.word.toNat % 16 = 5 ∧ nctx ≤ r.word.toNat / 256 % 16)) →
      ∃ why, decode nctx r = .illegal why) ∧
  (∀ (nctx : Nat) (r : Request) (i : Instr), decode 16 r = .cmd i →
    (decode nctx r = .cmd i ↔ ∀ c ∈ i.named, c.val < nctx))

/-- R80 to R95: the encoder's request of every well-formed command is well formed and decodes to that command, at every value of every operand. -/
def Obligations.DecodeOfEncode : Prop :=
  ∀ (nctx : Nat) (i : Instr), i.wellFormed nctx = true →
    (encode i).wellFormed = true ∧ decode nctx (encode i) = .cmd i

/-- R80 to R95: a well-formed request has one spelling: whatever command it decodes to is well formed and is encoded as that very request. -/
def Obligations.EncodeOfDecode : Prop :=
  ∀ (nctx : Nat) (r : Request) (i : Instr), r.wellFormed = true → decode nctx r = .cmd i →
    i.wellFormed nctx = true ∧ encode i = r

/-! ## Reset -/

/-- R240; what waits at the port is not the block's and stays (log 2), and no answer is delivered. -/
def Obligations.ResetWritesEveryState : Prop :=
  ∀ (s : State) (cut : Option Request) (rest : List Input), s.inputs = .reset cut :: rest →
    ∃ t, step s = .next t ∧ t.nctx = s.nctx ∧
      (∀ x ∈ t.ctxs, x.h.toList = List.replicate 8 0 ∧ (∀ k, x.buf.read k = 0x00) ∧
        x.pos = 0 ∧ x.tlen = 0 ∧ x.fin = false ∧ x.des = true) ∧
      (∀ i : Fin 64, t.kernel.w[i.val] = 0) ∧ t.kernel.regs.toList = List.replicate 8 0 ∧
      t.responses = s.responses ∧ t.inputs = rest

/-- R241 of the first command after reset, for every NCTX: UPDATE, DIGEST_INTO and DIGEST answer Destroyed on every context, and CREATE makes the context usable. How a context fares over later commands is LifecycleFollowsItsTable. -/
def Obligations.ContextsAreDeadAfterReset : Prop :=
  ∀ (nctx : Nat) (c : CtxIx), c.val < nctx →
    (∀ i : Instr, ((∃ t d, i = .update c t d) ∨ (∃ n, i = .digestInto c n) ∨ i = .digest c) →
      exec i (State.resetWith nctx) =
        .next { State.resetWith nctx with responses := [⟨.destroyed, []⟩] }) ∧
    (∃ t x, exec (.create c) (State.resetWith nctx) = .next t ∧ t.ctx? c = some x ∧
      x.life = .active)

/-- The invariant holds at reset, for every legal NCTX and at the model's own reset state (log 1). -/
def Obligations.ResetMeetsTheInvariant : Prop :=
  (∀ nctx, 1 ≤ nctx → nctx ≤ 16 → (State.resetWith nctx).Inv) ∧ State.reset.Inv

/-- Every step keeps the invariant and the number of contexts, from every state that meets it. -/
def Obligations.StepKeepsTheInvariant : Prop :=
  ∀ s t : State, s.Inv → step s = .next t → t.Inv ∧ t.nctx = s.nctx

/-! ## The commands -/

/-- R171: CREATE on any existing context, whatever its state. -/
def Obligations.CreateMakesAFreshContext : Prop :=
  ∀ (s : State) (c : CtxIx) (x : Context), s.ctx? c = some x →
    ∃ t y, exec (.create c) s = .next t ∧ t.ctx? c = some y ∧
      y.h.toList = [0x6a09e667, 0xbb67ae85, 0x3c6ef372, 0xa54ff53a,
        0x510e527f, 0x9b05688c, 0x1f83d9ab, 0x5be0cd19] ∧
      (∀ k, y.buf.read k = 0x00) ∧ y.pos = 0 ∧ y.tlen = 0 ∧ y.fin = false ∧ y.des = false ∧
      t.responses = s.responses ++ [⟨.ok, []⟩] ∧ t.kernel = s.kernel ∧ s.OnlyTouches t c

/-- R172: UPDATE of bytes on a live, unfinished context. The whole 64-byte blocks of the buffered bytes followed by the payload are compressed, what is left is buffered, and the length counter advances modulo 2^64. -/
def Obligations.UpdateAbsorbsThePayload : Prop :=
  ∀ (s : State) (c : CtxIx) (x : Context) (data : List Byte),
    s.ctx? c = some x → x.des = false → x.fin = false →
    ∃ t y, exec (.update c 0 data) s = .next t ∧ t.ctx? c = some y ∧
      y.h = Reference.foldBlocks x.h (x.validBytes ++ data) ∧
      y.validBytes = Reference.rest (x.validBytes ++ data) ∧
      y.pos.val = (x.pos.val + data.length) % 64 ∧
      y.tlen.toNat = (x.tlen.toNat + data.length) % 2 ^ 64 ∧ y.fin = false ∧ y.des = false ∧
      t.responses = s.responses ++ [⟨.ok, []⟩] ∧
      t.kernel = (if x.pos.val + data.length < 64 then s.kernel else Kernel.zero) ∧
      s.OnlyTouches t c

/-- R172, R51: the bytes UPDATE stores and the bytes it leaves. On success payload byte `j` goes to offset `(POS + j) mod 64`, a later byte over an earlier one; on an error no byte changes. FIN, DES and the other contexts never change. -/
def Obligations.UpdateStoresOnlyThePayload : Prop :=
  ∀ (s t : State) (c : CtxIx) (x : Context) (ityp : BitVec 2) (data : List Byte),
    s.ctx? c = some x → exec (.update c ityp data) s = .next t →
    ∃ y, t.ctx? c = some y ∧ y.fin = x.fin ∧ y.des = x.des ∧ s.OnlyTouches t c ∧
      (x.life = .active → ityp = 0 →
        (∀ k : Fin 64, (∀ j, j < data.length → (x.pos.val + j) % 64 ≠ k.val) →
          y.buf.read k = x.buf.read k) ∧
        (∀ (k : Fin 64) (j : Nat) (h : j < data.length), (x.pos.val + j) % 64 = k.val →
          data.length ≤ j + 64 → y.buf.read k = data[j])) ∧
      ((x.life ≠ .active ∨ ityp ≠ 0) → y = x ∧ t.kernel = s.kernel)

/-- R173(a): two UPDATEs and one UPDATE of the joined payload leave the context alike. -/
def Obligations.UpdateIsChunkInvariant : Prop :=
  ∀ (s : State) (c : CtxIx) (x : Context) (a b : List Byte),
    s.ctx? c = some x → x.des = false → x.fin = false → a.length + b.length ≤ 65535 →
    ∃ t u v y z, exec (.update c 0 a) s = .next t ∧ exec (.update c 0 b) t = .next u ∧
      exec (.update c 0 (a ++ b)) s = .next v ∧ u.ctx? c = some y ∧ v.ctx? c = some z ∧
      y.h = z.h ∧ y.pos = z.pos ∧ y.tlen = z.tlen ∧ y.fin = z.fin ∧ y.des = z.des ∧
      y.validBytes = z.validBytes ∧ u.kernel = v.kernel ∧ ∀ d, d ≠ c → u.ctx? d = v.ctx? d

/-- R174, R175, R177: DIGEST_INTO with room for the digest on a live, unfinished context. One final block is compressed when POS is at most 55, two otherwise; the buffer keeps the last one; POS and TLEN stay; the context is finished and not destroyed. -/
def Obligations.DigestIntoFinalizes : Prop :=
  ∀ (s : State) (c : CtxIx) (x : Context) (outcap : BitVec 16),
    s.ctx? c = some x → x.des = false → x.fin = false → 32 ≤ outcap.toNat →
    ∃ t y last, exec (.digestInto c outcap) s = .next t ∧ t.ctx? c = some y ∧
      (Reference.finalBlocks x.validBytes (Reference.bitCount x.tlen)).getLast? = some last ∧
      y.h = (Reference.finalBlocks x.validBytes (Reference.bitCount x.tlen)).foldl
        Reference.compress x.h ∧
      y.buf.bytes = last ∧ y.pos = x.pos ∧ y.tlen = x.tlen ∧ y.fin = true ∧ y.des = false ∧
      t.responses = s.responses ++ [⟨.ok, Reference.bytesOfWords y.h⟩] ∧
      t.kernel = Kernel.zero ∧ s.OnlyTouches t c

/-- R178: DIGEST on a live, unfinished context answers the digest of the same final blocks, then the running words and the buffer are zero and both flags are set; POS and TLEN stay. -/
def Obligations.DigestFinalizesAndDestroys : Prop :=
  ∀ (s : State) (c : CtxIx) (x : Context),
    s.ctx? c = some x → x.des = false → x.fin = false →
    ∃ t y, exec (.digest c) s = .next t ∧ t.ctx? c = some y ∧
      t.responses = s.responses ++ [⟨.ok, Reference.bytesOfWords
        ((Reference.finalBlocks x.validBytes (Reference.bitCount x.tlen)).foldl
          Reference.compress x.h)⟩] ∧
      y.h.toList = List.replicate 8 0 ∧ (∀ k, y.buf.read k = 0x00) ∧
      y.pos = x.pos ∧ y.tlen = x.tlen ∧ y.fin = true ∧ y.des = true ∧
      t.kernel = Kernel.zero ∧ s.OnlyTouches t c

/-- R179: CLONE copies the whole source context, whatever its state, onto any destination; onto itself it changes nothing. -/
def Obligations.CloneCopiesTheContext : Prop :=
  ∀ (s : State) (src dst : CtxIx) (x z : Context),
    s.ctx? src = some x → s.ctx? dst = some z →
    ∃ t, exec (.clone src dst) s = .next t ∧ t.ctx? dst = some x ∧ t.ctx? src = some x ∧
      (src = dst → t.ctxs = s.ctxs) ∧
      t.responses = s.responses ++ [⟨.ok, []⟩] ∧ t.kernel = s.kernel ∧ s.OnlyTouches t dst

/-- R180: DESTROY of any context zeroes the running words and the buffer and sets DES; POS, TLEN and FIN stay. A destroyed context of a state that meets the invariant is zero already, so DESTROY changes no context there. UPDATE, DIGEST_INTO and DIGEST right after it answer Destroyed. -/
def Obligations.DestroyScrubsTheContext : Prop :=
  ∀ (s : State) (c : CtxIx) (x : Context), s.ctx? c = some x →
    ∃ t y, exec (.destroy c) s = .next t ∧ t.ctx? c = some y ∧
      y.h.toList = List.replicate 8 0 ∧ (∀ k, y.buf.read k = 0x00) ∧ y.des = true ∧
      y.pos = x.pos ∧ y.tlen = x.tlen ∧ y.fin = x.fin ∧
      t.responses = s.responses ++ [⟨.ok, []⟩] ∧ t.kernel = s.kernel ∧ s.OnlyTouches t c ∧
      (s.Inv → x.des = true → t.ctxs = s.ctxs) ∧
      ∀ i : Instr, ((∃ ty d, i = .update c ty d) ∨ (∃ n, i = .digestInto c n) ∨ i = .digest c) →
        exec i t = .next { t with responses := t.responses ++ [⟨.destroyed, []⟩] }

/-- R212, R213, R215, R216: which error UPDATE, DIGEST_INTO and DIGEST answer, in R217's order of priority, that nothing else changes then, that CREATE, CLONE and DESTROY answer OK on a context in any state, and that DIGEST never answers OutputBufferTooSmall. -/
def Obligations.ErrorsInPriorityOrder : Prop :=
  ∀ (s : State) (c : CtxIx) (x : Context), s.ctx? c = some x →
    (x.des = true →
      ∀ i : Instr, ((∃ t d, i = .update c t d) ∨ (∃ n, i = .digestInto c n) ∨ i = .digest c) →
        exec i s = .next { s with responses := s.responses ++ [⟨.destroyed, []⟩] }) ∧
    (x.des = false → x.fin = true →
      ∀ i : Instr, ((∃ t d, i = .update c t d) ∨ (∃ n, i = .digestInto c n) ∨ i = .digest c) →
        exec i s = .next { s with responses := s.responses ++ [⟨.alreadyFinalized, []⟩] }) ∧
    (x.des = false → x.fin = false →
      (∀ (t : BitVec 2) (d : List Byte), t ≠ 0 → exec (.update c t d) s =
        .next { s with responses := s.responses ++ [⟨.invalidInputType, []⟩] }) ∧
      (∀ n : BitVec 16, n.toNat < 32 → exec (.digestInto c n) s =
        .next { s with responses := s.responses ++ [⟨.outputBufferTooSmall, []⟩] })) ∧
    (∀ i : Instr, (i = .create c ∨ i = .destroy c ∨ ∃ d z, i = .clone c d ∧ s.ctx? d = some z) →
      ∃ t, exec i s = .next t ∧ t.responses = s.responses ++ [⟨.ok, []⟩]) ∧
    (∀ t out, exec (.digest c) s = .next t →
      t.responses ≠ s.responses ++ [⟨.outputBufferTooSmall, out⟩])

/-- The model's choice, log 6: `exec` of a command that names a context the block does not have answers IllegalCommand and changes nothing; decoding lets no such command reach it (R89). -/
def Obligations.MissingContextIsIllegal : Prop :=
  ∀ (s : State) (i : Instr) (c : CtxIx), c ∈ i.named → s.nctx ≤ c.val →
    exec i s = .next { s with responses := s.responses ++ [⟨.illegalCommand, []⟩] }

/-! ## Rules about every command -/

/-- R35: a request taken gets exactly one answer, after all earlier ones, with 32 bytes when a DIGEST_INTO or DIGEST succeeds and none otherwise. -/
def Obligations.EveryRequestGetsOneAnswer : Prop :=
  ∀ (s t : State) (r : Request) (rest : List Input),
    s.inputs = .request r :: rest → step s = .next t →
    ∃ a, t.responses = s.responses ++ [a] ∧ t.inputs = rest ∧ t.nctx = s.nctx ∧
      a.out.length =
        if a.code = .ok ∧ (r.word.toNat % 16 = 3 ∨ r.word.toNat % 16 = 4) then 32 else 0

/-- R214: a command that fails changes nothing but for being taken and answered, and its answer has no bytes. -/
def Obligations.FailedCommandChangesNothing : Prop :=
  ∀ (s t : State) (r : Request) (rest : List Input) (a : Response),
    s.inputs = .request r :: rest → step s = .next t → t.responses = s.responses ++ [a] →
    a.code ≠ .ok →
    a.out = [] ∧ t = { s with inputs := rest, responses := s.responses ++ [a] }

/-- R246: `exec` of every command answers a next state, and `step` answers one in every state but where it refuses a malformed request (R95). Two cases in it are the model's choice: that a step at an empty port answers the unchanged state (DESIGN CHOICE, log 2), and that `exec` on a context the block does not have answers a next state (DESIGN CHOICE, log 6). -/
def Obligations.EveryCommandCompletes : Prop :=
  (∀ (i : Instr) (s : State), ∃ t, exec i s = .next t) ∧
  (∀ s : State, step s = .refused .malformedRequest ∨ ∃ t, step s = .next t)

/-- R181's table, every row and column: the state of the written context and the code of the answer, by the state of the context CTX names; an illegal word changes nothing. -/
def Obligations.LifecycleFollowsItsTable : Prop :=
  ∀ (s : State) (r : Request) (rest : List Input),
    s.inputs = .request r :: rest → r.wellFormed = true →
    (∀ (i : Instr) (x : Context), decode s.nctx r = .cmd i → s.ctx? i.ctx = some x →
      ∃ t y out, step s = .next t ∧ t.ctx? i.target = some y ∧
        y.life = (lifecycleRow i x.life).1 ∧
        t.responses = s.responses ++ [⟨(lifecycleRow i x.life).2, out⟩] ∧
        out.length = (if answersDigest i ∧ (lifecycleRow i x.life).2 = .ok then 32 else 0) ∧
        ∀ d, d ≠ i.target → t.ctx? d = s.ctx? d) ∧
    (∀ why, decode s.nctx r = .illegal why →
      step s = .next { s with inputs := rest, responses := s.responses ++ [⟨.illegalCommand, []⟩] })

/-- R218's table, both ways: an opcode's word can be answered with a code, in some state, exactly where the table says so. -/
def Obligations.CodesEachCommandCanReport : Prop :=
  ∀ (op : Nat) (code : Code), 1 ≤ op → op ≤ 6 →
    (code ∈ canReport op ↔
      ∃ (s t : State) (r : Request) (out : List Byte), s.inputs = [.request r] ∧
        r.word.toNat % 16 = op ∧ step s = .next t ∧ t.responses = s.responses ++ [⟨code, out⟩])

/-- R210: the numbers of the codes, six and seven never among them. -/
def Obligations.ResponseCodeNumbers : Prop :=
  (Code.ok.bits, Code.invalidInputType.bits, Code.alreadyFinalized.bits, Code.destroyed.bits,
    Code.outputBufferTooSmall.bits, Code.illegalCommand.bits) = (0#3, 1#3, 2#3, 3#3, 4#3, 5#3) ∧
  ∀ code : Code, code.bits ≠ 6#3 ∧ code.bits ≠ 7#3

/-- R34's table: which commands can change each field of a context `c`, and how each flag changes. -/
def Obligations.WritersOfEachField : Prop :=
  ∀ (i : Instr) (s t : State) (c : CtxIx) (x y : Context),
    exec i s = .next t → s.ctx? c = some x → t.ctx? c = some y →
    (y ≠ x → i.target = c) ∧
    (y.pos ≠ x.pos ∨ y.tlen ≠ x.tlen →
      i = .create c ∨ (∃ ty d, i = .update c ty d) ∨ ∃ src, i = .clone src c) ∧
    (y.fin ≠ x.fin →
      (y.fin = true ∧ ((∃ n, i = .digestInto c n) ∨ i = .digest c)) ∨
      (y.fin = false ∧ i = .create c) ∨
      ∃ src z, i = .clone src c ∧ s.ctx? src = some z ∧ y.fin = z.fin) ∧
    (y.des ≠ x.des →
      (y.des = true ∧ (i = .destroy c ∨ i = .digest c)) ∨
      (y.des = false ∧ i = .create c) ∨
      ∃ src z, i = .clone src c ∧ s.ctx? src = some z ∧ y.des = z.des)

/-- R70: between contexts the block has, a command's answer and what it writes depend on the context CTX names alone, not on the other contexts (CLONE's destination among them) and not on the kernel scratch; and it writes one context only, itself or CLONE's destination. -/
def Obligations.CommandReadsOneContextAndWritesOne : Prop :=
  ∀ (i : Instr) (s s' t t' : State), exec i s = .next t → exec i s' = .next t' →
    s.nctx = s'.nctx → (∀ c ∈ i.named, c.val < s.nctx) → s.ctx? i.ctx = s'.ctx? i.ctx →
    t.ctx? i.target = t'.ctx? i.target ∧
    (∃ a, t.responses = s.responses ++ [a] ∧ t'.responses = s'.responses ++ [a]) ∧
    (∀ c, c ≠ i.target → t.ctx? c = s.ctx? c)

/-- 70_reset_and_hazards.md R243 H-8: two commands that name no context in common leave the same contexts and kernel in either order, each with the same answer. -/
def Obligations.CommandsOnDifferentContextsCommute : Prop :=
  ∀ (i j : Instr) (s t u t' u' : State), (∀ c, c ∈ i.named → c ∉ j.named) →
    exec i s = .next t → exec j t = .next u → exec j s = .next t' → exec i t' = .next u' →
    u.ctxs = u'.ctxs ∧ u.kernel = u'.kernel ∧
    ∃ a b, u.responses = s.responses ++ [a, b] ∧ u'.responses = s.responses ++ [b, a]

/-- R38: two states that differ only in dead bytes, in fields of finished or destroyed contexts that no response depends on, and in the kernel scratch, give the same answers and stay alike; the malformed request is refused in both. -/
def Obligations.HiddenStateNeverShows : Prop :=
  ∀ (k : Nat) (s t : State), s.SameOutside t →
    (∀ s', Host.Core.run core k s = .next s' →
      ∃ t', Host.Core.run core k t = .next t' ∧ s'.SameOutside t') ∧
    (Host.Core.run core k s = .refused .malformedRequest ↔
      Host.Core.run core k t = .refused .malformedRequest)

/-- R65, R247: a run over well-formed requests takes them all and answers each, in order, one answer for each. -/
def Obligations.RunAnswersEveryRequest : Prop :=
  ∀ (rs : List Request) (s : State), s.inputs = rs.map .request →
    (∀ r ∈ rs, r.wellFormed = true) →
    ∃ t answers, Host.Core.run core rs.length s = .next t ∧ t.inputs = [] ∧
      t.responses = s.responses ++ answers ∧ answers.length = rs.length ∧ t.nctx = s.nctx

/-- R179's corner case and the source's clone continuation: on two contexts that hold the same, the same command gets the same answer and leaves the same. -/
def Obligations.EqualContextsAnswerAlike : Prop :=
  ∀ (s t u : State) (a b : CtxIx) (x : Context) (i j : Instr),
    s.ctx? a = some x → s.ctx? b = some x →
    ((i = .create a ∧ j = .create b) ∨ (∃ ty d, i = .update a ty d ∧ j = .update b ty d) ∨
      (∃ n, i = .digestInto a n ∧ j = .digestInto b n) ∨ (i = .digest a ∧ j = .digest b) ∨
      (i = .destroy a ∧ j = .destroy b)) →
    exec i s = .next t → exec j s = .next u →
    t.ctx? a = u.ctx? b ∧ t.responses = u.responses ∧ t.kernel = u.kernel

/-! ## The kernel -/

/-- R110, R114, R115, R122, R123: the primitives, bit by bit. -/
def Obligations.PrimitivesBitByBit : Prop :=
  (∀ x y : Word, (add32 x y).toNat = (x.toNat + y.toNat) % 2 ^ 32) ∧
  (∀ (x : Word) (n k : Nat), n < 32 → k < 32 →
    (rotr x n).getLsbD k = x.getLsbD ((k + n) % 32) ∧
    (shr x n).getLsbD k = if k + n ≤ 31 then x.getLsbD (k + n) else false) ∧
  (∀ (e f g : Word) (k : Nat), k < 32 →
    (choice e f g).getLsbD k = if e.getLsbD k then f.getLsbD k else g.getLsbD k) ∧
  (∀ (a b c : Word) (k : Nat), k < 32 → ((majority a b c).getLsbD k = true ↔
    2 ≤ (a.getLsbD k).toNat + (b.getLsbD k).toNat + (c.getLsbD k).toNat))

/-- R118 to R121. -/
def Obligations.SigmaFunctions : Prop :=
  ∀ x : Word,
    sigma0 x = x.rotateRight 7 ^^^ x.rotateRight 18 ^^^ x >>> 3 ∧
    sigma1 x = x.rotateRight 17 ^^^ x.rotateRight 19 ^^^ x >>> 10 ∧
    bigSigma0 x = x.rotateRight 2 ^^^ x.rotateRight 13 ^^^ x.rotateRight 22 ∧
    bigSigma1 x = x.rotateRight 6 ^^^ x.rotateRight 11 ^^^ x.rotateRight 25

/-- R141: every round constant is the integer cube root of `p_i * 2^96` modulo 2^32, `p_i` the `i`-th prime from `p_0 = 2`. -/
def Obligations.RoundConstantsAreCubeRoots : Prop :=
  ∀ i : Fin 64, ∃ r : Nat, r ^ 3 ≤ Nat.nth Nat.Prime i.val * 2 ^ 96 ∧
    Nat.nth Nat.Prime i.val * 2 ^ 96 < (r + 1) ^ 3 ∧ (roundConstant i).toNat = r % 2 ^ 32

/-- R130 to R132: the big-endian views, by number. -/
def Obligations.ByteViewsAreBigEndian : Prop :=
  (∀ (m : Memory) (i : Fin 16) (k : Nat → Fin 64), (∀ j, j < 4 → (k j).val = 4 * i.val + j) →
    (be32Load m i).toNat = (m.read (k 0)).toNat * 2 ^ 24 + (m.read (k 1)).toNat * 2 ^ 16 +
      (m.read (k 2)).toNat * 2 ^ 8 + (m.read (k 3)).toNat) ∧
  (∀ (m : Memory) (v : DWord) (o : Fin 64),
    (be64Store m v).read o =
      if 56 ≤ o.val then v.extractLsb' (8 * (63 - o.val)) 8 else m.read o) ∧
  (∀ h : Words, (digestBytes h).length = 32 ∧ ∀ (j k : Nat) (w : Word), j < 8 → k < 4 →
    h.toList[j]? = some w → (digestBytes h)[4 * j + k]? = some (w.extractLsb' (24 - 8 * k) 8))

/-- Two canonical buffers with the same 64 bytes are the same data (log 4). -/
def Obligations.CanonicalBuffersAreTheirBytes : Prop :=
  ∀ m n : Memory, m.wf = true → n.wf = true → m.bytes = n.bytes → m = n

/-- R143, R144: the finished schedule, entry by entry, whatever the scratch held. -/
def Obligations.ScheduleRecurrence : Prop :=
  ∀ (m : Memory) (w0 w : Vector Word 64), w = scheduleExpand (scheduleLoad m w0) →
    (∀ i : Fin 16, w[i.val] = be32Load m i) ∧
    (∀ (i : Nat) (_ : 16 ≤ i) (h : i < 64),
      w[i] = sigma1 w[i - 2] + w[i - 7] + sigma0 w[i - 15] + w[i - 16])

/-- R146, R147: one round, from the register values at its start. -/
def Obligations.RoundRotatesTheRegisters : Prop :=
  ∀ (r : Words) (k w : Word), ∃ t1 t2 : Word,
    t1 = r.h + bigSigma1 r.e + choice r.e r.f r.g + k + w ∧
    t2 = bigSigma0 r.a + majority r.a r.b r.c ∧
    (roundStep r k w).toList = [t1 + t2, r.a, r.b, r.c, r.d + t1, r.e, r.f, r.g]

/-- R150: PROCESS gives the running words of a datapath that computes each schedule word just before its round, whatever the scratch held; nothing else of the context changes, and the scratch is zero afterwards (R149). -/
def Obligations.ProcessIsJustInTimeCompression : Prop :=
  ∀ (x : Context) (k : Kernel),
    process (x, k) = ({ x with h := Reference.compress x.h x.buf.bytes }, Kernel.zero)

/-- R176: the length field by number, as `{TLEN[60:0], 0b000}`, and as finalization stores it, big-endian at offsets 56 to 63. -/
def Obligations.LengthFieldIsTheBitCount : Prop :=
  ∀ tlen : DWord, (lenField tlen).toNat = tlen.toNat * 8 % 2 ^ 64 ∧
    lenField tlen = Reference.bitCount tlen ∧
    ∀ (m : Memory) (k : Fin 64), 56 ≤ k.val →
      (be64Store m (lenField tlen)).read k = (Reference.bitCount tlen).extractLsb' (8 * (63 - k.val)) 8

/-- R175: the extra block is taken exactly when the space after the 0x80 byte is less than 8 bytes, so from POS 56 on: then the full block is compressed and a zeroed one started, else nothing happens yet. -/
def Obligations.ExtraBlockFromOffset56 : Prop :=
  ∀ (s : Work) (pos : Fin 64), (needsExtraBlock pos = true ↔ 63 - pos.val < 8) ∧
    (needsExtraBlock pos = true ↔ 56 ≤ pos.val) ∧
    (56 ≤ pos.val →
      extraBlock s pos = ((process s).1.setBuf Memory.zeroed, (process s).2)) ∧
    (pos.val ≤ 55 → extraBlock s pos = s)

/-! ## The digest of a stream -/

/-- R27(c), (d): CREATE starts the empty stream, UPDATE extends the stream by its payload, CLONE gives the destination the source's stream. -/
def Obligations.ContextTracksItsStream : Prop :=
  (∀ (s t : State) (c : CtxIx) (x : Context), s.ctx? c = some x → exec (.create c) s = .next t →
    ∃ y, t.ctx? c = some y ∧ Reference.Holds y []) ∧
  (∀ (s t : State) (c : CtxIx) (x : Context) (m data : List Byte),
    s.ctx? c = some x → Reference.Holds x m → exec (.update c 0 data) s = .next t →
    ∃ y, t.ctx? c = some y ∧ Reference.Holds y (m ++ data)) ∧
  (∀ (s t : State) (src dst : CtxIx) (x z : Context) (m : List Byte),
    s.ctx? src = some x → s.ctx? dst = some z → Reference.Holds x m →
    exec (.clone src dst) s = .next t → ∃ y, t.ctx? dst = some y ∧ Reference.Holds y m)

/-- R2, R177, R178: on a context that has absorbed the stream `m`, DIGEST_INTO and DIGEST answer the SHA-256 of `m`, its bit count taken modulo 2^64 (R176, 93_implementation_defined.md B4): the SHA-256 of FIPS 180-4 for streams below 2^61 bytes. -/
def Obligations.DigestOfAStreamIsItsSha256 : Prop :=
  ∀ (s : State) (c : CtxIx) (x : Context) (m : List Byte),
    s.ctx? c = some x → Reference.Holds x m →
    (∀ outcap : BitVec 16, 32 ≤ outcap.toNat → ∃ t, exec (.digestInto c outcap) s = .next t ∧
      t.responses = s.responses ++ [⟨.ok, Reference.sha256 m⟩]) ∧
    (∃ t, exec (.digest c) s = .next t ∧
      t.responses = s.responses ++ [⟨.ok, Reference.sha256 m⟩])

/-- HASH (R98 over R97) run by its commands (R171, R172, R178), from any state: CREATE, any UPDATEs and DIGEST on one context, sent as their words, answer OK each time and at last the SHA-256 (R2) of the payloads joined, its bit count taken modulo 2^64 (R176, 93_implementation_defined.md B4): the SHA-256 of FIPS 180-4 for messages below 2^61 bytes. The context is left destroyed. -/
def Obligations.HashOfAnyMessageIsItsSha256 : Prop :=
  ∀ (s : State) (c : CtxIx) (chunks : List (List Byte)) (rest : List Input),
    c.val < s.nctx → (∀ d ∈ chunks, d.length ≤ 65535) →
    s.inputs = .request (encode (.create c)) ::
      (chunks.map fun d => .request (encode (.update c 0 d))) ++
      .request (encode (.digest c)) :: rest →
    ∃ t y, Host.Core.run core (chunks.length + 2) s = .next t ∧ t.inputs = rest ∧
      t.responses = s.responses ++ List.replicate (chunks.length + 1) ⟨.ok, []⟩ ++
        [⟨.ok, Reference.sha256 chunks.flatten⟩] ∧
      t.ctx? c = some y ∧ y.life = .dead
end

