-- ==== Sys2Proof/Laws/Decode.lean ====
section
/-! SUPPORT. The fields of a command word by number, and the fields of a word the encoder builds. -/

namespace Sys2Proof

section
variable (w : Word)

theorem opField_toNat : (opField w).toNat = w.toNat % 16 := by simp [opField]

theorem ctxField_val : (ctxField w).val = w.toNat / 16 % 16 := by
  simp [ctxField, Nat.shiftRight_eq_div_pow]

theorem dstField_val : (dstField w).val = w.toNat / 256 % 16 := by
  simp [dstField, Nat.shiftRight_eq_div_pow]

theorem itypField_toNat : (itypField w).toNat = w.toNat / 4096 % 4 := by
  simp [itypField, Nat.shiftRight_eq_div_pow]

theorem rsvField_toNat : (rsvField w).toNat = w.toNat / 16384 % 4 := by
  simp [rsvField, Nat.shiftRight_eq_div_pow]

theorem immField_toNat : (immField w).toNat = w.toNat / 65536 := by
  have := w.isLt
  simp [immField, Nat.shiftRight_eq_div_pow]
  omega

end

/-! ## The fields of a built word (spec/30_encoding.md R80) -/

section
variable (imm : BitVec 16) (ityp : BitVec 2) (dst ctx : CtxIx) (op : BitVec 4)

/-- Bit `k` of a built word, field by field. -/
theorem getLsbD_commandWord (k : Nat) : (commandWord imm ityp dst ctx op).getLsbD k =
    if k < 4 then op.getLsbD k else if k < 8 then (BitVec.ofFin ctx : BitVec 4).getLsbD (k - 4)
    else if k < 12 then (BitVec.ofFin dst : BitVec 4).getLsbD (k - 8)
    else if k < 14 then ityp.getLsbD (k - 12) else if k < 16 then false
    else imm.getLsbD (k - 16) := by
  simp only [commandWord, BitVec.getLsbD_append, BitVec.getLsbD_zero]
  split_ifs <;> first | rfl | omega

@[simp] theorem opField_commandWord : opField (commandWord imm ityp dst ctx op) = op := by
  apply BitVec.eq_of_getLsbD_eq
  intro k hk
  simp [opField, getLsbD_commandWord, hk]

@[simp] theorem ctxField_commandWord : ctxField (commandWord imm ityp dst ctx op) = ctx := by
  refine congrArg BitVec.toFin (a₂ := (BitVec.ofFin ctx : BitVec 4)) (BitVec.eq_of_getLsbD_eq fun k hk => ?_)
  simp only [BitVec.getLsbD_extractLsb', hk, getLsbD_commandWord, Nat.add_sub_cancel_left]
  split_ifs <;> first | omega | simp

@[simp] theorem dstField_commandWord : dstField (commandWord imm ityp dst ctx op) = dst := by
  refine congrArg BitVec.toFin (a₂ := (BitVec.ofFin dst : BitVec 4)) (BitVec.eq_of_getLsbD_eq fun k hk => ?_)
  simp only [BitVec.getLsbD_extractLsb', hk, getLsbD_commandWord, Nat.add_sub_cancel_left]
  split_ifs <;> first | omega | simp

@[simp] theorem itypField_commandWord : itypField (commandWord imm ityp dst ctx op) = ityp := by
  apply BitVec.eq_of_getLsbD_eq
  intro k hk
  simp only [itypField, BitVec.getLsbD_extractLsb', hk, getLsbD_commandWord, Nat.add_sub_cancel_left]
  split_ifs <;> first | omega | simp

@[simp] theorem rsvField_commandWord : rsvField (commandWord imm ityp dst ctx op) = 0#2 := by
  apply BitVec.eq_of_getLsbD_eq
  intro k hk
  simp only [rsvField, BitVec.getLsbD_extractLsb', hk, getLsbD_commandWord]
  split_ifs <;> first | omega | simp

@[simp] theorem immField_commandWord : immField (commandWord imm ityp dst ctx op) = imm := by
  apply BitVec.eq_of_getLsbD_eq
  intro k hk
  simp only [immField, BitVec.getLsbD_extractLsb', hk, getLsbD_commandWord, Nat.add_sub_cancel_left]
  split_ifs <;> first | omega | simp

end

end Sys2Proof
end

