-- ==== Sys2Proof/Laws/Memory.lean ====
section
/-! SUPPORT. The laws of a block buffer: read after write, the canonical form kept by every operation, and what the byte views write. -/

namespace Sys2Proof.Machine

@[simp] theorem read_zeroed (k : Fin 64) : Memory.read Memory.zeroed k = 0 := rfl

theorem read_erase (m : Memory) (k j : Fin 64) :
    (Memory.erase m k).read j = if j = k then 0 else m.read j := by
  induction m with
  | nil => simp [Memory.erase, Memory.read]
  | cons p m ih =>
    obtain ⟨a, v⟩ := p
    simp only [Memory.erase] at ih
    by_cases h : a = k.val <;> by_cases hj : j = k
    all_goals simp_all [Memory.erase, Memory.read]
    intro h'; exact absurd (Fin.ext h'.symm) hj

theorem read_insert (m : Memory) (k j : Fin 64) (v : Byte)
    (h : ∀ x ∈ m, x.1 ≠ k.val) :
    (Memory.insert m k v).read j = if j = k then v else m.read j := by
  induction m with
  | nil => simp [Memory.insert, Memory.read, Fin.ext_iff, eq_comm]
  | cons p m ih =>
    obtain ⟨a, w⟩ := p
    have ha : a ≠ k.val := h (a, w) (by simp)
    have ih := ih (fun x hx => h x (by simp [hx]))
    by_cases hlt : k.val < a
    · simp [Memory.insert, hlt, Memory.read, Fin.ext_iff, eq_comm]
    · simp only [Memory.insert, hlt, if_false, Memory.read, ih]
      by_cases hj : j = k
      · simp [hj, ha]
      · simp [hj]

theorem mem_erase {m : Memory} {k : Fin 64} {x : Host.Cell} :
    x ∈ Memory.erase m k ↔ x ∈ m ∧ x.1 ≠ k.val := by simp [Memory.erase]

/-- 20_memory.md R51: "A byte write `BUF[c][k] <- v` changes only that byte." -/
theorem read_write (m : Memory) (k j : Fin 64) (v : Byte) :
    (m.write k v).read j = if j = k then v else m.read j := by
  unfold Memory.write
  split
  · simp_all [read_erase]
  · rw [read_insert _ _ _ _ (fun x hx => (mem_erase.mp hx).2), read_erase]
    split <;> simp_all

@[simp] theorem read_write_self (m : Memory) (k : Fin 64) (v : Byte) :
    (m.write k v).read k = v := by simp [read_write]

theorem read_write_ne (m : Memory) {k j : Fin 64} (v : Byte) (h : j ≠ k) :
    (m.write k v).read j = m.read j := by simp [read_write, h]

theorem read_fill (m : Memory) (ks : List (Fin 64)) (v : Byte) (j : Fin 64) :
    (m.fill ks v).read j = if j ∈ ks then v else m.read j := by
  induction ks generalizing m with
  | nil => rfl
  | cons k ks ih =>
    have : m.fill (k :: ks) v = (m.write k v).fill ks v := rfl
    rw [this, ih, read_write]
    by_cases h1 : j ∈ ks <;> by_cases h2 : j = k <;> simp_all

/-! ## The canonical form -/

theorem wf_iff (m : Memory) : m.wf = true ↔
    m.Pairwise (fun x y => x.1 < y.1) ∧ ∀ x ∈ m, x.1 < 64 ∧ x.2 ≠ 0 := by
  simp [Memory.wf]

theorem wf_zeroed : Memory.wf Memory.zeroed = true := rfl

theorem wf_erase {m : Memory} (h : m.wf = true) (k : Fin 64) : (m.erase k).wf = true := by
  rw [wf_iff] at *
  exact ⟨h.1.filter _, fun x hx => h.2 x (mem_erase.mp hx).1⟩

theorem mem_insert {m : Memory} {k : Fin 64} {v : Byte} {x : Host.Cell} :
    x ∈ Memory.insert m k v ↔ x = (k.val, v) ∨ x ∈ m := by
  induction m with
  | nil => simp [Memory.insert]
  | cons p m ih =>
    obtain ⟨a, w⟩ := p
    by_cases hlt : k.val < a
    · simp [Memory.insert, hlt]
    · simp only [Memory.insert, hlt, if_false, List.mem_cons, ih]; tauto

theorem wf_insert {m : Memory} (h : m.wf = true) {k : Fin 64} {v : Byte} (hv : v ≠ 0)
    (hk : ∀ x ∈ m, x.1 ≠ k.val) : (m.insert k v).wf = true := by
  rw [wf_iff] at *
  refine ⟨?_, fun x hx => (mem_insert.mp hx).elim (fun e => by subst e; exact ⟨k.isLt, hv⟩) (h.2 x)⟩
  replace h := h.1
  induction m with
  | nil => simp [Memory.insert]
  | cons p m ih =>
    obtain ⟨a, w⟩ := p
    rw [List.pairwise_cons] at h
    have ha : a ≠ k.val := hk (a, w) (by simp)
    by_cases hlt : k.val < a
    · simp only [Memory.insert, hlt, if_true, List.pairwise_cons]
      refine ⟨?_, h⟩
      rintro x (_ | ⟨_, hx⟩)
      · exact hlt
      · exact hlt.trans (h.1 _ hx)
    · simp only [Memory.insert, hlt, if_false, List.pairwise_cons]
      refine ⟨fun x hx => ?_, ih (fun x hx => hk x (by simp [hx])) h.2⟩
      rcases mem_insert.mp hx with rfl | hx
      · exact lt_of_le_of_ne (not_lt.mp hlt) ha
      · exact h.1 _ hx

/-- Every byte write keeps the canonical form. -/
theorem wf_write {m : Memory} (h : m.wf = true) (k : Fin 64) (v : Byte) :
    (m.write k v).wf = true := by
  unfold Memory.write
  split
  · exact wf_erase h k
  · exact wf_insert (wf_erase h k) ‹_› (fun x hx => (mem_erase.mp hx).2)

theorem wf_fill {m : Memory} (h : m.wf = true) (ks : List (Fin 64)) (v : Byte) :
    (m.fill ks v).wf = true := by
  induction ks generalizing m with
  | nil => exact h
  | cons k ks ih => exact ih (wf_write h k v)

theorem wf_be64Store {m : Memory} (h : m.wf = true) (v : DWord) : (be64Store m v).wf = true := by
  unfold be64Store
  generalize List.finRange 8 = ks
  induction ks generalizing m with
  | nil => exact h
  | cons k ks ih => exact ih (wf_write h _ _)

theorem wf_byteStore {m : Memory} (h : m.wf = true) (k : Fin 64) (v : Byte) :
    (byteStore m k v).wf = true := wf_write h k v

/-- R133. -/
theorem read_byteStore (m : Memory) (k j : Fin 64) (v : Byte) :
    (byteStore m k v).read j = if j = k then v else m.read j := read_write m k j v

end Sys2Proof.Machine
end

