-- ==== Sys2Proof/Laws/State.lean ====
section
/-! SUPPORT. One lemma for each field of State and each update, and the context lookups after an update, so that no later proof unfolds a record update. -/

namespace Sys2Proof.Machine

section
variable (s : State) (c d : CtxIx) (x : Context) (k : Kernel) (code : Code) (out : List Byte)
  (ins : List Input)

@[simp] theorem setCtx_ctxs : (s.setCtx c x).ctxs = s.ctxs.set c.val x := rfl
@[simp] theorem setCtx_kernel : (s.setCtx c x).kernel = s.kernel := rfl
@[simp] theorem setCtx_inputs : (s.setCtx c x).inputs = s.inputs := rfl
@[simp] theorem setCtx_responses : (s.setCtx c x).responses = s.responses := rfl
@[simp] theorem setCtx_nctx : (s.setCtx c x).nctx = s.nctx := by simp [State.nctx]

@[simp] theorem setKernel_ctxs : (s.setKernel k).ctxs = s.ctxs := rfl
@[simp] theorem setKernel_kernel : (s.setKernel k).kernel = k := rfl
@[simp] theorem setKernel_inputs : (s.setKernel k).inputs = s.inputs := rfl
@[simp] theorem setKernel_responses : (s.setKernel k).responses = s.responses := rfl
@[simp] theorem setKernel_nctx : (s.setKernel k).nctx = s.nctx := rfl

@[simp] theorem respond_ctxs : (s.respond code out).ctxs = s.ctxs := rfl
@[simp] theorem respond_kernel : (s.respond code out).kernel = s.kernel := rfl
@[simp] theorem respond_inputs : (s.respond code out).inputs = s.inputs := rfl
@[simp] theorem respond_responses :
    (s.respond code out).responses = s.responses ++ [{ code := code, out := out }] := rfl
@[simp] theorem respond_nctx : (s.respond code out).nctx = s.nctx := rfl

@[simp] theorem withInputs_nctx : ({ s with inputs := ins } : State).nctx = s.nctx := rfl
@[simp] theorem withInputs_ctx? : ({ s with inputs := ins } : State).ctx? c = s.ctx? c := rfl

@[simp] theorem hardReset_ctxs : s.hardReset.ctxs = List.replicate s.nctx Context.reset := rfl
@[simp] theorem hardReset_kernel : s.hardReset.kernel = Kernel.zero := rfl
@[simp] theorem hardReset_inputs : s.hardReset.inputs = s.inputs := rfl
@[simp] theorem hardReset_responses : s.hardReset.responses = s.responses := rfl
@[simp] theorem hardReset_nctx : s.hardReset.nctx = s.nctx := by simp [State.nctx]

@[simp] theorem respond_ctx? : (s.respond code out).ctx? c = s.ctx? c := rfl
@[simp] theorem setKernel_ctx? : (s.setKernel k).ctx? c = s.ctx? c := rfl

/-- A context exists exactly below NCTX. -/
theorem ctx?_isSome : (s.ctx? c).isSome = decide (c.val < s.nctx) := by
  rw [Bool.eq_iff_iff, decide_eq_true_iff]; simp [State.ctx?, State.nctx]

theorem ctx?_eq_some_lt {s : State} {c : CtxIx} {x : Context} (h : s.ctx? c = some x) :
    c.val < s.nctx := (List.getElem?_eq_some_iff.mp h).1

theorem exists_ctx_of_lt {s : State} {c : CtxIx} (h : c.val < s.nctx) : ∃ x, s.ctx? c = some x :=
  ⟨_, List.getElem?_eq_getElem h⟩

/-- The context set is the one read back, if it exists. -/
@[simp] theorem setCtx_ctx?_self (h : c.val < s.nctx) : (s.setCtx c x).ctx? c = some x := by
  simp [State.ctx?, List.getElem?_set_self (show c.val < s.ctxs.length from h)]

/-- 20_memory.md R70: no other context changes. -/
theorem setCtx_ctx?_ne {c d : CtxIx} (h : d ≠ c) : (s.setCtx c x).ctx? d = s.ctx? d := by
  simp [State.ctx?, List.getElem?_set_ne (fun e => h (Fin.ext e.symm) : c.val ≠ d.val)]

/-- Setting a context to what it is changes nothing. -/
theorem setCtx_same {s : State} {c : CtxIx} {x : Context} (h : s.ctx? c = some x) :
    s.setCtx c x = s := by
  obtain ⟨hl, hx⟩ := List.getElem?_eq_some_iff.mp h
  have : s.ctxs.set c.val x = s.ctxs := by rw [← hx]; exact List.set_getElem_self hl
  simp only [State.setCtx, this]

end

/-! ## Fields of a context after an update

Proved by taking the context apart, so that rewriting with them leaves the kernel nothing to unfold. -/

section
variable (x : Context) (v : Words)

@[simp] theorem setH_h : (x.setH v).h = v := by cases x; rfl
@[simp] theorem setH_buf : (x.setH v).buf = x.buf := by cases x; rfl
@[simp] theorem setH_pos : (x.setH v).pos = x.pos := by cases x; rfl
@[simp] theorem setH_tlen : (x.setH v).tlen = x.tlen := by cases x; rfl
@[simp] theorem setH_fin : (x.setH v).fin = x.fin := by cases x; rfl
@[simp] theorem setH_des : (x.setH v).des = x.des := by cases x; rfl

end

section
variable (x : Context) (v : Memory)

@[simp] theorem setBuf_h : (x.setBuf v).h = x.h := by cases x; rfl
@[simp] theorem setBuf_buf : (x.setBuf v).buf = v := by cases x; rfl
@[simp] theorem setBuf_pos : (x.setBuf v).pos = x.pos := by cases x; rfl
@[simp] theorem setBuf_tlen : (x.setBuf v).tlen = x.tlen := by cases x; rfl
@[simp] theorem setBuf_fin : (x.setBuf v).fin = x.fin := by cases x; rfl
@[simp] theorem setBuf_des : (x.setBuf v).des = x.des := by cases x; rfl

end

section
variable (x : Context) (v : Fin 64)

@[simp] theorem setPos_h : (x.setPos v).h = x.h := by cases x; rfl
@[simp] theorem setPos_buf : (x.setPos v).buf = x.buf := by cases x; rfl
@[simp] theorem setPos_pos : (x.setPos v).pos = v := by cases x; rfl
@[simp] theorem setPos_tlen : (x.setPos v).tlen = x.tlen := by cases x; rfl
@[simp] theorem setPos_fin : (x.setPos v).fin = x.fin := by cases x; rfl
@[simp] theorem setPos_des : (x.setPos v).des = x.des := by cases x; rfl

end

section
variable (x : Context) (v : DWord)

@[simp] theorem setTlen_h : (x.setTlen v).h = x.h := by cases x; rfl
@[simp] theorem setTlen_buf : (x.setTlen v).buf = x.buf := by cases x; rfl
@[simp] theorem setTlen_pos : (x.setTlen v).pos = x.pos := by cases x; rfl
@[simp] theorem setTlen_tlen : (x.setTlen v).tlen = v := by cases x; rfl
@[simp] theorem setTlen_fin : (x.setTlen v).fin = x.fin := by cases x; rfl
@[simp] theorem setTlen_des : (x.setTlen v).des = x.des := by cases x; rfl

end

section
variable (x : Context)

@[simp] theorem markFinished_h : (x.markFinished).h = x.h := by cases x; rfl
@[simp] theorem markFinished_buf : (x.markFinished).buf = x.buf := by cases x; rfl
@[simp] theorem markFinished_pos : (x.markFinished).pos = x.pos := by cases x; rfl
@[simp] theorem markFinished_tlen : (x.markFinished).tlen = x.tlen := by cases x; rfl
@[simp] theorem markFinished_fin : (x.markFinished).fin = true := by cases x; rfl
@[simp] theorem markFinished_des : (x.markFinished).des = x.des := by cases x; rfl

end

section
variable (x : Context)

@[simp] theorem markDestroyed_h : (x.markDestroyed).h = x.h := by cases x; rfl
@[simp] theorem markDestroyed_buf : (x.markDestroyed).buf = x.buf := by cases x; rfl
@[simp] theorem markDestroyed_pos : (x.markDestroyed).pos = x.pos := by cases x; rfl
@[simp] theorem markDestroyed_tlen : (x.markDestroyed).tlen = x.tlen := by cases x; rfl
@[simp] theorem markDestroyed_fin : (x.markDestroyed).fin = x.fin := by cases x; rfl
@[simp] theorem markDestroyed_des : (x.markDestroyed).des = true := by cases x; rfl

end

section
variable (x : Context)

@[simp] theorem scrub_h : x.scrub.h = Words.zero := by simp [Context.scrub]
@[simp] theorem scrub_buf : x.scrub.buf = Memory.zeroed := by simp [Context.scrub]
@[simp] theorem scrub_pos : x.scrub.pos = x.pos := by simp [Context.scrub]
@[simp] theorem scrub_tlen : x.scrub.tlen = x.tlen := by simp [Context.scrub]
@[simp] theorem scrub_fin : x.scrub.fin = x.fin := by simp [Context.scrub]
@[simp] theorem scrub_des : x.scrub.des = true := by simp [Context.scrub]

end

end Sys2Proof.Machine
end

