-- ==== Sys2Proof/Laws/Engine.lean ====
section
/-! SUPPORT. What PROCESS, absorbing and finalization do to each field of a context and to the kernel. -/

namespace Sys2Proof.Machine

/-! ## Tables (41_compression_kernel.md R141) -/

@[simp] theorem roundConstants_length : roundConstants.length = 64 := rfl

/-- Each row's constant is the fraction of its prime's cube root, `q` being the root's whole part. -/
theorem roundTable_fraction : ∀ row ∈ roundTable, ∃ q < 7,
    (q * 2 ^ 32 + row.2.toNat) ^ 3 ≤ row.1 * 2 ^ 96 ∧
    row.1 * 2 ^ 96 < (q * 2 ^ 32 + row.2.toNat + 1) ^ 3 := by decide +kernel

/-! ## PROCESS: of the context only `H`, and the scratch ends zero (41_compression_kernel.md R149, R152) -/

section
variable (s : Work)

@[simp] theorem process_buf : (process s).1.buf = s.1.buf := setH_buf _ _
@[simp] theorem process_pos : (process s).1.pos = s.1.pos := setH_pos _ _
@[simp] theorem process_tlen : (process s).1.tlen = s.1.tlen := setH_tlen _ _
@[simp] theorem process_fin : (process s).1.fin = s.1.fin := setH_fin _ _
@[simp] theorem process_des : (process s).1.des = s.1.des := setH_des _ _
@[simp] theorem process_kernel : (process s).2 = Kernel.zero := rfl
theorem process_h : (process s).1.h = s.1.h.add (s.2.compress s.1).regs := setH_h _ _

end

/-! ## Absorbing (42_engine_commands.md R172) -/

@[simp] theorem absorb_nil (s : Work) : absorb s [] = s := rfl

@[simp] theorem absorb_cons (s : Work) (v : Byte) (d : List Byte) :
    absorb s (v :: d) = absorb (absorbByte s v) d := rfl

theorem absorb_append (s : Work) (a b : List Byte) : absorb s (a ++ b) = absorb (absorb s a) b :=
  List.foldl_append

section
variable (s : Work) (v : Byte)

@[simp] theorem absorbByte_buf : (absorbByte s v).1.buf = byteStore s.1.buf s.1.pos v := by
  unfold absorbByte; split <;> simp

theorem absorbByte_pos : (absorbByte s v).1.pos.val = (s.1.pos.val + 1) % 64 := by
  unfold absorbByte
  split
  · simp [*]
  · simp [Fin.val_add]

@[simp] theorem absorbByte_tlen : (absorbByte s v).1.tlen = s.1.tlen := by
  unfold absorbByte; split <;> simp
@[simp] theorem absorbByte_fin : (absorbByte s v).1.fin = s.1.fin := by
  unfold absorbByte; split <;> simp
@[simp] theorem absorbByte_des : (absorbByte s v).1.des = s.1.des := by
  unfold absorbByte; split <;> simp
theorem absorbByte_kernel :
    (absorbByte s v).2 = if s.1.pos.val = 63 then Kernel.zero else s.2 := by
  unfold absorbByte; split <;> simp

end

section
variable (s : Work) (d : List Byte)

theorem absorb_pos : (absorb s d).1.pos.val = (s.1.pos.val + d.length) % 64 := by
  induction d generalizing s with
  | nil => simp [Nat.mod_eq_of_lt s.1.pos.isLt]
  | cons v d ih => rw [absorb_cons, ih, absorbByte_pos]; simp; omega

@[simp] theorem absorb_tlen : (absorb s d).1.tlen = s.1.tlen := by
  induction d generalizing s with
  | nil => rfl
  | cons v d ih => simp [ih]
@[simp] theorem absorb_fin : (absorb s d).1.fin = s.1.fin := by
  induction d generalizing s with
  | nil => rfl
  | cons v d ih => simp [ih]
@[simp] theorem absorb_des : (absorb s d).1.des = s.1.des := by
  induction d generalizing s with
  | nil => rfl
  | cons v d ih => simp [ih]

theorem absorb_wf (h : s.1.buf.wf = true) : (absorb s d).1.buf.wf = true := by
  induction d generalizing s with
  | nil => exact h
  | cons v d ih => exact ih _ (by simpa using wf_byteStore h _ _)

theorem absorb_kernel_zero (h : s.2 = Kernel.zero) : (absorb s d).2 = Kernel.zero := by
  induction d generalizing s with
  | nil => exact h
  | cons v d ih => exact ih _ (by rw [absorbByte_kernel, h]; split <;> rfl)

@[simp] theorem updateWork_h : (updateWork s d).1.h = (absorb s d).1.h := setTlen_h _ _
@[simp] theorem updateWork_buf : (updateWork s d).1.buf = (absorb s d).1.buf := setTlen_buf _ _
@[simp] theorem updateWork_pos : (updateWork s d).1.pos = (absorb s d).1.pos := setTlen_pos _ _
@[simp] theorem updateWork_tlen :
    (updateWork s d).1.tlen = s.1.tlen + BitVec.ofNat 64 d.length := by simp [updateWork]
@[simp] theorem updateWork_fin : (updateWork s d).1.fin = s.1.fin := by simp [updateWork]
@[simp] theorem updateWork_des : (updateWork s d).1.des = s.1.des := by simp [updateWork]
@[simp] theorem updateWork_kernel : (updateWork s d).2 = (absorb s d).2 := rfl

end

/-! ## Finalization (R174) -/

theorem mem_offsetsFrom {q : Nat} {k : Fin 64} : k ∈ offsetsFrom q ↔ q ≤ k.val := by
  simp [offsetsFrom]

/-- R174: the data, the 0x80 byte and the zeros, byte by byte. -/
theorem read_padded (x : Context) (k : Fin 64) : (padded x).buf.read k =
    if k.val < x.pos.val then x.buf.read k else if k = x.pos then 0x80 else 0 := by
  simp only [padded, setBuf_buf, read_fill, mem_offsetsFrom, read_byteStore, Fin.ext_iff]
  split_ifs <;> first | rfl | omega

section
variable (s : Work) (p : Fin 64)

@[simp] theorem extraBlock_pos : (extraBlock s p).1.pos = s.1.pos := by
  unfold extraBlock; split <;> simp
@[simp] theorem extraBlock_tlen : (extraBlock s p).1.tlen = s.1.tlen := by
  unfold extraBlock; split <;> simp
@[simp] theorem extraBlock_fin : (extraBlock s p).1.fin = s.1.fin := by
  unfold extraBlock; split <;> simp
@[simp] theorem extraBlock_des : (extraBlock s p).1.des = s.1.des := by
  unfold extraBlock; split <;> simp

@[simp] theorem finalize_pos : (finalize s).1.pos = s.1.pos := by
  simp [finalize, padded]
@[simp] theorem finalize_tlen : (finalize s).1.tlen = s.1.tlen := by
  simp [finalize, padded]
@[simp] theorem finalize_fin : (finalize s).1.fin = true := by
  simp [finalize]
@[simp] theorem finalize_des : (finalize s).1.des = s.1.des := by
  simp [finalize, padded]
@[simp] theorem finalize_kernel : (finalize s).2 = Kernel.zero := rfl

theorem padded_wf (x : Context) (h : x.buf.wf = true) : (padded x).buf.wf = true := by
  simpa [padded] using wf_fill (wf_byteStore h _ _) _ _

theorem finalize_wf (h : s.1.buf.wf = true) : (finalize s).1.buf.wf = true := by
  simp only [finalize, markFinished_buf, process_buf, setBuf_buf, extraBlock]
  split
  · simpa using wf_be64Store wf_zeroed _
  · exact wf_be64Store (padded_wf _ h) _

end

end Sys2Proof.Machine
end

