-- ==== Sys2Proof/Laws/Exec.lean ====
section
/-! SUPPORT. Everything `exec` and `step` can do, said once: a command that names a missing context or meets an error answers with a code and no more; otherwise it writes its target context and the kernel and answers OK. -/

namespace Sys2Proof.Machine

/-- The error a command meets on the context CTX names (60_exceptions.md R217). -/
def commandError : Instr → Context → Option Code
  | .update _ t _, x     => firstError [x.lifecycleError, itypError t]
  | .digestInto _ n, x   => firstError [x.lifecycleError, outcapError n]
  | .digest _, x         => firstError [x.lifecycleError]
  | .create _, _ | .clone _ _, _ | .destroy _, _ => none

/-! The checks as one conditional each, in R217's order. -/

theorem commandError_update (c : CtxIx) (t : BitVec 2) (d : List Byte) (x : Context) :
    commandError (.update c t d) x =
      if x.des then some .destroyed else if x.fin then some .alreadyFinalized
      else if t = 0#2 then none else some .invalidInputType := by
  simp only [commandError, Context.lifecycleError, itypError]; split_ifs <;> simp_all [firstError]

theorem commandError_digestInto (c : CtxIx) (n : BitVec 16) (x : Context) :
    commandError (.digestInto c n) x =
      if x.des then some .destroyed else if x.fin then some .alreadyFinalized
      else if 32 ≤ n.toNat then none else some .outputBufferTooSmall := by
  simp only [commandError, Context.lifecycleError, outcapError]
  split_ifs <;> first | rfl | (unfold Config.outLen at *; omega)

theorem commandError_digest (c : CtxIx) (x : Context) :
    commandError (.digest c) x =
      if x.des then some .destroyed else if x.fin then some .alreadyFinalized else none := by
  simp only [commandError, Context.lifecycleError]; split_ifs <;> rfl

@[simp] theorem commandError_create (c : CtxIx) (x : Context) : commandError (.create c) x = none := rfl
@[simp] theorem commandError_clone (a b : CtxIx) (x : Context) : commandError (.clone a b) x = none := rfl
@[simp] theorem commandError_destroy (c : CtxIx) (x : Context) : commandError (.destroy c) x = none := rfl

/-- What a command makes of the context CTX names and the kernel: the context it writes, the kernel, the bytes it answers. -/
def commandEffect : Instr → Work → Context × Kernel × List Byte
  | .create _, s       => (Context.created, s.2, [])
  | .update _ _ d, s   => ((updateWork s d).1, (updateWork s d).2, [])
  | .digestInto _ _, s => ((finalize s).1, (finalize s).2, digestBytes (finalize s).1.h)
  | .digest _, s       => ((finalize s).1.scrub, (finalize s).2, digestBytes (finalize s).1.h)
  | .clone _ _, s      => (s.1, s.2, [])
  | .destroy _, s      => (s.1.scrub, s.2, [])

/-- The state a command that succeeds leaves. -/
def succeeded (i : Instr) (s : State) (x : Context) : State :=
  let e := commandEffect i (x, s.kernel)
  ((s.setCtx i.target e.1).setKernel e.2.1).respond .ok e.2.2

theorem exec_of_missing {i : Instr} {s : State} (h : s.ctx? i.ctx = none ∨ s.ctx? i.target = none) :
    exec i s = .next (s.respond .illegalCommand []) := by
  cases i with
  | clone a b =>
    simp only [Instr.ctx, Instr.target] at h
    simp only [exec, execClone, State.withCtx]
    split
    · rcases h with h | h <;> simp_all [State.raise]
    · rfl
  | _ => simp_all [exec, execCreate, execUpdate, execDigestInto, execDigest, execDestroy,
      State.withCtx, Instr.ctx, Instr.target, State.raise]

theorem exec_of_error {i : Instr} {s : State} {x z : Context} {e : Code}
    (hx : s.ctx? i.ctx = some x) (hz : s.ctx? i.target = some z) (he : commandError i x = some e) :
    exec i s = .next (s.respond e []) := by
  cases i <;> simp_all [commandError, exec, execUpdate, execDigestInto, execDigest,
    State.withCtx, Instr.ctx, State.raise]

theorem exec_of_success {i : Instr} {s : State} {x z : Context}
    (hx : s.ctx? i.ctx = some x) (hz : s.ctx? i.target = some z) (he : commandError i x = none) :
    exec i s = .next (succeeded i s x) := by
  cases i <;> simp_all [commandError, exec, execCreate, execUpdate, execDigestInto, execDigest,
    execClone, execDestroy, State.withCtx, Instr.ctx, Instr.target, succeeded, commandEffect,
    State.succeed] <;> rfl

/-- `exec` inverted: missing context, error, or success. -/
theorem exec_cases {i : Instr} {s t : State} (h : exec i s = .next t) :
    ((s.ctx? i.ctx = none ∨ s.ctx? i.target = none) ∧ t = s.respond .illegalCommand []) ∨
    ∃ x z, s.ctx? i.ctx = some x ∧ s.ctx? i.target = some z ∧
      ((∃ e, commandError i x = some e ∧ t = s.respond e []) ∨
        (commandError i x = none ∧ t = succeeded i s x)) := by
  cases hx : s.ctx? i.ctx with
  | none => rw [exec_of_missing (.inl hx)] at h; cases h; exact .inl ⟨.inl rfl, rfl⟩
  | some x =>
    cases hz : s.ctx? i.target with
    | none => rw [exec_of_missing (.inr hz)] at h; cases h; exact .inl ⟨.inr rfl, rfl⟩
    | some z =>
      right
      refine ⟨x, z, rfl, rfl, ?_⟩
      cases he : commandError i x with
      | none => rw [exec_of_success hx hz he] at h; cases h; exact .inr ⟨rfl, rfl⟩
      | some e => rw [exec_of_error hx hz he] at h; cases h; exact .inl ⟨e, rfl, rfl⟩

section
variable (i : Instr) (s : State) (x : Context)

@[simp] theorem succeeded_inputs : (succeeded i s x).inputs = s.inputs := rfl
@[simp] theorem succeeded_nctx : (succeeded i s x).nctx = s.nctx := by simp [succeeded]
@[simp] theorem succeeded_kernel :
    (succeeded i s x).kernel = (commandEffect i (x, s.kernel)).2.1 := rfl
@[simp] theorem succeeded_responses : (succeeded i s x).responses =
    s.responses ++ [⟨.ok, (commandEffect i (x, s.kernel)).2.2⟩] := rfl
@[simp] theorem succeeded_ctxs : (succeeded i s x).ctxs =
    s.ctxs.set i.target.val (commandEffect i (x, s.kernel)).1 := rfl
theorem succeeded_ctx?_target {z : Context} (h : s.ctx? i.target = some z) :
    (succeeded i s x).ctx? i.target = some (commandEffect i (x, s.kernel)).1 := by
  simp [succeeded, ctx?_eq_some_lt h]
theorem succeeded_ctx?_ne (d : CtxIx) (h : d ≠ i.target) :
    (succeeded i s x).ctx? d = s.ctx? d := by simp [succeeded, setCtx_ctx?_ne s _ h]

end

/-- `step` inverted: nothing at the port, a reset, or a well-formed request that is illegal or runs its command. -/
theorem step_cases {s t : State} (h : step s = .next t) :
    (s.inputs = [] ∧ t = s) ∨
    (∃ cut rest, s.inputs = .reset cut :: rest ∧ t = { s with inputs := rest }.hardReset) ∨
    ∃ r rest, s.inputs = .request r :: rest ∧ r.wellFormed = true ∧
      ((∃ why, decode s.nctx r = .illegal why ∧
          t = { s with inputs := rest }.respond .illegalCommand []) ∨
        ∃ i, decode s.nctx r = .cmd i ∧ exec i { s with inputs := rest } = .next t) := by
  unfold step at h
  split at h
  · rename_i hi; cases h; exact .inl ⟨hi, rfl⟩
  · rename_i cut rest hi; cases h; exact .inr (.inl ⟨cut, rest, hi, rfl⟩)
  · rename_i r rest hi
    split at h
    · rename_i hw
      refine .inr (.inr ⟨r, rest, hi, hw, ?_⟩)
      unfold runRequest at h
      split at h
      · rename_i why hd; cases h; exact .inl ⟨why, hd, rfl⟩
      · rename_i i hd; exact .inr ⟨i, hd, h⟩
    · cases h

end Sys2Proof.Machine
end

