-- ==== Sys2Proof/Laws/PerInstr.lean ====
section
/-! SUPPORT. Statements made for each command, one lemma for each constructor. -/

namespace Sys2Proof.Laws

/-- The number of a command in spec/30_encoding.md R88. -/
def opcode : Instr → BitVec 4
  | .create _      => 1
  | .update ..     => 2
  | .digestInto .. => 3
  | .digest _      => 4
  | .clone ..      => 5
  | .destroy _     => 6

/-- The family EncodedFields: the encoder's word of a command carries its opcode, its CTX and a zero RSV, and DST is zero but for CLONE (R86 to R88). -/
def EncodedFields.Statement (i : Instr) : Prop :=
  opField (encode i).word = opcode i ∧ ctxField (encode i).word = i.ctx ∧
    rsvField (encode i).word = 0#2 ∧
    dstField (encode i).word = match i with
      | .clone _ d => d
      | .create _ | .update .. | .digestInto .. | .digest _ | .destroy _ => 0

theorem EncodedFields.create (c : CtxIx) : EncodedFields.Statement (.create c) := by
  simp [EncodedFields.Statement, encode, opcode, Instr.ctx]
theorem EncodedFields.update (c : CtxIx) (ityp : BitVec 2) (data : List Byte) :
    EncodedFields.Statement (.update c ityp data) := by
  simp [EncodedFields.Statement, encode, opcode, Instr.ctx]
theorem EncodedFields.digestInto (c : CtxIx) (outcap : BitVec 16) :
    EncodedFields.Statement (.digestInto c outcap) := by
  simp [EncodedFields.Statement, encode, opcode, Instr.ctx]
theorem EncodedFields.digest (c : CtxIx) : EncodedFields.Statement (.digest c) := by
  simp [EncodedFields.Statement, encode, opcode, Instr.ctx]
theorem EncodedFields.clone (src dst : CtxIx) : EncodedFields.Statement (.clone src dst) := by
  simp [EncodedFields.Statement, encode, opcode, Instr.ctx]
theorem EncodedFields.destroy (c : CtxIx) : EncodedFields.Statement (.destroy c) := by
  simp [EncodedFields.Statement, encode, opcode, Instr.ctx]

end Sys2Proof.Laws
end

