-- ==== Sys2Proof/Tests/Slice0.lean ====
section
/-! SUPPORT. Tests against the spec's own words and vectors (spec/30_encoding.md section 6, spec/95_test_vectors.md), and for every obligation with hypotheses a concrete state that meets them. -/

namespace Sys2Proof.Tests

open Sys2Proof.Machine

/-! ## Small states -/

/-- A context right after CREATE (CV1). -/
def fresh : Context := Context.created

/-- After CREATE and UPDATE "abc" (CV3). -/
def abc : Context := { fresh with buf := [(0, 0x61), (1, 0x62), (2, 0x63)], pos := 3, tlen := 3 }

/-- As `abc`, with bytes beyond POS, which are dead (R38(a)). -/
def abcDead : Context := { abc with buf := abc.buf ++ [(3, 0x55), (63, 0xaa)] }

/-- 63 bytes 0x61 buffered (CV5). -/
def pos63 : Context :=
  { fresh with buf := (List.range 63).map (fun k => (k, 0x61)), pos := 63, tlen := 63 }

/-- Finished and not destroyed. -/
def finished : Context := { abc with fin := true }

/-- A block of two contexts, with these inputs at its port. -/
def block (x y : Context) (ins : List Input := []) : State :=
  { ctxs := [x, y], kernel := Kernel.zero, inputs := ins, responses := [] }

/-- A request of a word and its payload at the port. -/
def req (w : Word) (d : List Byte := []) : Input := .request ⟨w, d⟩

/-- The state a step or a command leaves, if it leaves one. -/
def after : Host.Outcome State Fault Refusal → Option State
  | .next s => some s
  | .fault _ => none
  | .refused _ => none

/-- What a step or a command answers last. -/
def lastCode (o : Host.Outcome State Fault Refusal) : Option Code :=
  (after o).bind fun s => s.responses.getLast?.map Response.code

/-! ## Well-formedness: an ill-formed term for each check -/

theorem test_ctx_range_refused : (Instr.create 2).wellFormed 2 = false := by decide
theorem test_update_ctx_range_refused : (Instr.update 2 0 []).wellFormed 2 = false := by decide
theorem test_digestInto_ctx_range_refused : (Instr.digestInto 15 32).wellFormed 15 = false := by decide
theorem test_digest_ctx_range_refused : (Instr.digest 1).wellFormed 1 = false := by decide
theorem test_clone_src_range_refused : (Instr.clone 2 0).wellFormed 2 = false := by decide
theorem test_clone_dst_range_refused : (Instr.clone 0 2).wellFormed 2 = false := by decide
theorem test_destroy_ctx_range_refused : (Instr.destroy 15).wellFormed 15 = false := by decide
theorem test_payload_too_long_refused :
    (Instr.update 0 0 (List.replicate 65536 0)).wellFormed 2 = false := by
  simp only [Instr.wellFormed, payloadFits, List.length_replicate]; decide
theorem test_largest_payload_accepted :
    (Instr.update 0 0 (List.replicate 65535 0)).wellFormed 2 = true := by
  simp only [Instr.wellFormed, payloadFits, List.length_replicate]; decide

/-! ## Decoding, words written out from 30_encoding.md R80 and R88 -/

/-- DC3, DC4: the same word is a command on a larger block only. -/
theorem test_decode_create : decode 2 ⟨0x00000011, []⟩ = .cmd (.create 1) ∧
    decode 16 ⟨0x000000f1, []⟩ = .cmd (.create 15) ∧
    decode 2 ⟨0x000000f1, []⟩ = .illegal .ctxRange := by decide
/-- LEN, RSV, ITYP, DST, CTX and OP side by side; and DC6. -/
theorem test_decode_update :
    decode 2 ⟨0b0000000000000011#16 ++ 0b00#2 ++ 0b00#2 ++ 0b0000#4 ++ 0b0001#4 ++ 0b0010#4,
      [0x61, 0x62, 0x63]⟩ = .cmd (.update 1 0 [0x61, 0x62, 0x63]) ∧
    decode 2 ⟨0x00002002, []⟩ = .cmd (.update 0 2 []) := by decide
/-- DC12, DC13. -/
theorem test_decode_digestInto : decode 2 ⟨0x00200013, []⟩ = .cmd (.digestInto 1 32) ∧
    decode 2 ⟨0xffff0003, []⟩ = .cmd (.digestInto 0 65535) := by decide
/-- DC15, DC16. -/
theorem test_decode_digest : decode 2 ⟨0x00000004, []⟩ = .cmd (.digest 0) ∧
    decode 2 ⟨0x00010004, []⟩ = .illegal .mustBeZero := by decide
/-- DC17, DC18: CTX is the source, DST the destination. -/
theorem test_decode_clone : decode 2 ⟨0x00000105, []⟩ = .cmd (.clone 0 1) ∧
    decode 16 ⟨0x00000f05, []⟩ = .cmd (.clone 0 15) ∧
    decode 2 ⟨0x00000f05, []⟩ = .illegal .dstRange := by decide
/-- DC21, DC22. -/
theorem test_decode_destroy : decode 2 ⟨0x00000016, []⟩ = .cmd (.destroy 1) ∧
    decode 2 ⟨0x00000106, []⟩ = .illegal .mustBeZero := by decide
/-- DC1, DC9, DC10, DC11, DC14, DC19, DC20, DC23 to DC26, on a block with every context. -/
theorem test_decode_illegal :
    ∀ w ∈ [0x0003c002, 0x00000102, 0x00004002, 0x00008001, 0x00001003, 0x00001005, 0x00010005,
      0x00000000, 0x00000007, 0x0000000f, 0x00000008],
      ∀ i, decode 16 ⟨w, []⟩ ≠ .cmd i := by
  intro w hw i
  simp only [List.mem_cons, List.not_mem_nil, or_false] at hw
  rcases hw with rfl | rfl | rfl | rfl | rfl | rfl | rfl | rfl | rfl | rfl | rfl <;> exact nofun
/-- The payload column of DC1, DC5, DC9 (R93). -/
theorem test_payload_length :
    payloadLen 0x0003c002 = 3 ∧ payloadLen 0x00030002 = 3 ∧ payloadLen 0x00200013 = 0 := by decide
theorem test_encode_update : encode (.update 1 0 [0x61, 0x62, 0x63]) =
    ⟨0x00030012, [0x61, 0x62, 0x63]⟩ := by decide
theorem test_encode_clone : encode (.clone 0 1) = ⟨0x00000105, []⟩ := by decide
theorem test_table_word : decodeTableWord 32 0x00000105 = some (.clone 0 1) ∧
    decodeTableWord 32 0x00030002 = some (.update 0 0 [0, 0, 0]) ∧
    decodeTableWord 32 0x00000007 = none := by decide

/-! ## Primitives, tables and views (95_test_vectors.md 2.1, 2.2) -/

/-- WP1 to WP3, WP8 to WP11, WP15 to WP18. -/
theorem test_add_rotr_shr :
    add32 0x6a09e667 0xbb67ae85 = 0x257194ec ∧ add32 0xffffffff 1 = 0 ∧
    add32 0x80000000 0x80000000 = 0 ∧ rotr 1 7 = 0x02000000 ∧ rotr 0x80000000 2 = 0x20000000 ∧
    rotr 0x12345678 8 = 0x78123456 ∧ rotr 1 31 = 2 ∧ shr 0xffffffff 3 = 0x1fffffff ∧
    shr 0xffffffff 10 = 0x003fffff ∧ shr 0x80000000 3 = 0x10000000 ∧
    shr 0x12345678 10 = 0x00048d15 := by decide
/-- SG3, SG4, SG5, SG7, SG8. -/
theorem test_sigmas :
    sigma0 1 = 0x02004000 ∧ sigma1 1 = 0x0000a000 ∧ bigSigma0 1 = 0x40080400 ∧
    bigSigma1 1 = 0x04200080 ∧ sigma0 0x80000000 = 0x11002000 ∧ sigma1 0x80000000 = 0x00205000 ∧
    sigma0 0x61626380 = 0x940e90ef ∧ sigma1 0x61626380 = 0x7da86405 ∧
    bigSigma0 0x6a09e667 = 0xce20b47e ∧ bigSigma1 0x510e527f = 0x3587272b := by decide
/-- CM1 to CM6, CM9. -/
theorem test_choice_majority :
    choice 0xf0f0f0f0 0xaaaaaaaa 0x55555555 = 0xa5a5a5a5 ∧
    choice 0x510e527f 0x9b05688c 0x1f83d9ab = 0x1f85c98c ∧
    choice 0xffffffff 0x12345678 0x9abcdef0 = 0x12345678 ∧
    majority 0x6a09e667 0xbb67ae85 0x3c6ef372 = 0x3a6fe667 ∧
    majority 0xffffffff 0 0x12345678 = 0x12345678 ∧
    majority 0xf0f0f0f0 0xcccccccc 0xaaaaaaaa = 0xe8e8e8e8 := by decide
/-- BV1, BV4, BV7. -/
theorem test_byte_views :
    be32Load [(0, 0x61), (1, 0x62), (2, 0x63), (3, 0x80)] 0 = 0x61626380 ∧
    be64Store [] 0x118 = [(62, 0x01), (63, 0x18)] ∧
    bytesOfWord 0xba7816bf = [0xba, 0x78, 0x16, 0xbf] := by decide
/-- T3 to T10, and the sum check of 2.2. -/
theorem test_round_constants :
    roundConstant 0 = 0x428a2f98 ∧ roundConstant 1 = 0x71374491 ∧ roundConstant 15 = 0xc19bf174 ∧
    roundConstant 16 = 0xe49b69c1 ∧ roundConstant 31 = 0x14292967 ∧
    roundConstant 32 = 0x27b70a85 ∧ roundConstant 62 = 0xbef9a3f7 ∧
    roundConstant 63 = 0xc67178f2 ∧ roundConstants.foldl (· + ·) 0 = 0x941d1755 := by
  decide +kernel
/-- Round 0 of "abc" (95_test_vectors.md 2.4). -/
theorem test_round_zero : roundStep iv 0x428a2f98 0x61626380 =
    ⟨0x5d6aebcd, 0x6a09e667, 0xbb67ae85, 0x3c6ef372,
      0xfa2a4622, 0x510e527f, 0x9b05688c, 0x1f83d9ab⟩ := by decide
/-- LF3, LF5, LF6, LF8. -/
theorem test_length_field :
    lenField 3 = 0x18 ∧ lenField 0x1fffffffffffffff = 0xfffffffffffffff8 ∧
    lenField 0x2000000000000000 = 0 ∧ lenField 0xffffffffffffffff = 0xfffffffffffffff8 := by decide
/-- PR2: the all-zero block from IV; and the scratch is zero afterwards (R149). -/
theorem test_process_zero_block :
    (process (fresh, Kernel.zero)).1.h =
      ⟨0xda5698be, 0x17b9b469, 0x62335799, 0x779fbeca,
        0x8ce5d491, 0xc0d26243, 0xbafef9ea, 0x1837a9d8⟩ := by decide +kernel

/-! ## Buffer bytes -/

theorem test_write_zero_unlists : Memory.write [(3, 0x80)] 3 0 = [] := by decide
theorem test_write_keeps_order : Memory.write [(0, 1), (5, 2)] 3 0x80 = [(0, 1), (3, 0x80), (5, 2)] := by
  decide

/-! ## Commands (95_test_vectors.md 2.5, 2.6) -/

/-- CV1. -/
theorem test_create : after (exec (.create 0) (block Context.reset Context.reset)) =
    some { block fresh Context.reset with responses := [⟨.ok, []⟩] } := by decide
/-- CV2. -/
theorem test_create_discards : after (exec (.create 0) (block finished Context.reset)) =
    some { block fresh Context.reset with responses := [⟨.ok, []⟩] } := by decide
/-- CV3. -/
theorem test_update_abc :
    after (exec (.update 0 0 [0x61, 0x62, 0x63]) (block fresh Context.reset)) =
      some { block abc Context.reset with responses := [⟨.ok, []⟩] } := by decide
/-- CV6: the byte that fills the block. -/
theorem test_update_fills_block :
    (after (exec (.update 0 0 [0x61]) (block pos63 Context.reset))).map
      (fun s => (s.ctxs.map Context.h, s.ctxs.map Context.pos, s.ctxs.map Context.tlen)) =
    some ([⟨0xdf5bb81c, 0xe81e0626, 0xfb45a894, 0x4fd40f31,
      0xb25e6816, 0xd6d499c1, 0xab904929, 0x00635e66⟩, Words.zero], [0, 0], [64, 0]) := by
  decide +kernel
/-- CV9. -/
theorem test_digestInto_abc :
    (after (exec (.digestInto 0 32) (block abc Context.reset))).map
      (fun s => (s.responses.map Response.out, s.ctxs.map Context.fin, s.ctxs.map Context.des)) =
    some ([[0xba, 0x78, 0x16, 0xbf, 0x8f, 0x01, 0xcf, 0xea, 0x41, 0x41, 0x40, 0xde,
      0x5d, 0xae, 0x22, 0x23, 0xb0, 0x03, 0x61, 0xa3, 0x96, 0x17, 0x7a, 0x9c,
      0xb4, 0x10, 0xff, 0x61, 0xf2, 0x00, 0x15, 0xad]], [true, false], [false, true]) := by
  decide +kernel
/-- CV11, EP1, EP2: too small, and the order of errors. -/
theorem test_digestInto_errors :
    lastCode (exec (.digestInto 0 31) (block abc Context.reset)) = some .outputBufferTooSmall ∧
    lastCode (exec (.digestInto 1 16) (block abc Context.reset)) = some .destroyed ∧
    lastCode (exec (.digestInto 0 16) (block finished Context.reset)) = some .alreadyFinalized := by
  decide
/-- MD63: two final blocks; CV13's end state. -/
theorem test_digest_two_blocks :
    (after (exec (.digest 0) (block pos63 Context.reset))).map
      (fun s => (s.responses.map Response.out, s.ctxs)) =
    some ([[0x7d, 0x3e, 0x74, 0xa0, 0x5d, 0x7d, 0xb1, 0x5b, 0xce, 0x4a, 0xd9, 0xec,
      0x06, 0x58, 0xea, 0x98, 0xe3, 0xf0, 0x6e, 0xee, 0xcf, 0x16, 0xb4, 0xc6,
      0xff, 0xf2, 0xda, 0x45, 0x7d, 0xdc, 0x2f, 0x34]],
      [⟨Words.zero, [], 63, 63, true, true⟩, Context.reset]) := by decide +kernel
/-- CV14, CV15. -/
theorem test_digest_errors :
    lastCode (exec (.digest 0) (block finished Context.reset)) = some .alreadyFinalized ∧
    lastCode (exec (.digest 1) (block finished Context.reset)) = some .destroyed := by decide
/-- CL1, dead bytes included. -/
theorem test_clone : after (exec (.clone 0 1) (block abcDead Context.reset)) =
    some { block abcDead abcDead with responses := [⟨.ok, []⟩] } := by decide
/-- CL5. -/
theorem test_clone_dead_source : after (exec (.clone 1 0) (block abc Context.reset)) =
    some { block Context.reset Context.reset with responses := [⟨.ok, []⟩] } := by decide
/-- CV17. -/
theorem test_destroy : after (exec (.destroy 0) (block abc Context.reset)) =
    some { block ⟨Words.zero, [], 3, 3, false, true⟩ Context.reset with
      responses := [⟨.ok, []⟩] } := by decide
/-- CV19. -/
theorem test_destroy_after_reset : after (exec (.destroy 0) (block Context.reset Context.reset)) =
    some { block Context.reset Context.reset with responses := [⟨.ok, []⟩] } := by decide

/-! ## Steps -/

/-- EP4, EP6, EP7, EP9. -/
theorem test_step_errors :
    lastCode (step (block abc Context.reset [req 0x00031012 [1, 2, 3]])) = some .destroyed ∧
    lastCode (step (block abc Context.reset [req 0x00031002 [1, 2, 3]])) = some .invalidInputType ∧
    lastCode (step (block abc Context.reset [req 0x00034002 [1, 2, 3]])) = some .illegalCommand ∧
    lastCode (step (block abc Context.reset [req 0x00000205])) = some .illegalCommand := by decide
/-- R95. -/
theorem test_malformed_request :
    step (block abc Context.reset [req 0x00030002 [1, 2]]) = .refused .malformedRequest := rfl
/-- The host's first fetched word after reset: CREATE 0, then its context is live. -/
theorem test_fetch_word :
    (after (step (State.reset.withFetchWord 32 0x00000001))).map
      (fun s => (s.ctxs.head?.map Context.life, s.inputs, s.responses)) =
    some (some .active, [], [⟨.ok, []⟩]) := by decide

/-! ## Witnesses: each obligation's hypotheses are met -/

/-- A request at the port whose word is CREATE 1. -/
def atPort : State := block abc Context.reset [req 0x00000011, req 0x00000004]

/-- StepRunsTheDecodedCommand, EveryRequestGetsOneAnswer. -/
theorem witness_request :
    atPort.inputs = .request ⟨0x00000011, []⟩ :: [req 0x00000004] ∧
    (⟨0x00000011, []⟩ : Request).wellFormed = true ∧
    decode atPort.nctx ⟨0x00000011, []⟩ = .cmd (.create 1) ∧
    (after (step atPort)).isSome = true := by decide

/-- MalformedRequestHasNoStep, both sides: payloads of 2 and 3 bytes for LEN = 3, of 0 for an illegal word. -/
theorem witness_malformed :
    ([1, 2] : List Byte).length ≠ (if (0x00030002 : Word).toNat % 16 = 2 then
      (0x00030002 : Word).toNat / 65536 else 0) ∧
    ([1, 2, 3] : List Byte).length = (if (0x00030002 : Word).toNat % 16 = 2 then
      (0x00030002 : Word).toNat / 65536 else 0) ∧
    ([] : List Byte).length = (if (0xffff0007 : Word).toNat % 16 = 2 then
      (0xffff0007 : Word).toNat / 65536 else 0) := by decide

/-- EmptyPortWaits. -/
theorem witness_empty_port : (block abc finished).inputs = [] := rfl

/-- IllegalWordChangesNothing: UPDATE with RSV = 1 and its payload. -/
theorem witness_illegal :
    (block abc abc [req 0x00034002 [1, 2, 3]]).inputs = [.request ⟨0x00034002, [1, 2, 3]⟩] ∧
    (⟨0x00034002, [1, 2, 3]⟩ : Request).wellFormed = true ∧
    Reference.illegalWord (block abc abc).nctx 0x00034002 := by
  unfold Reference.illegalWord; decide

/-- ContextRangeIsByValue: CTX and DST at NCTX and just below. -/
theorem witness_range :
    2 ≤ (0x00000021 : Word).toNat / 16 % 16 ∧
    ((0x00000205 : Word).toNat % 16 = 5 ∧ 2 ≤ (0x00000205 : Word).toNat / 256 % 16) ∧
    decode 16 ⟨0x00000105, []⟩ = .cmd (.clone 0 1) ∧
    (∀ c ∈ (Instr.clone 0 1).named, c.val < 2) ∧ ¬ (∀ c ∈ (Instr.clone 0 1).named, c.val < 1) := by
  decide

/-- DecodeOfEncode, EncodeOfDecode: the last context and a payload. -/
theorem witness_encoding :
    (Instr.update 15 3 [0xff]).wellFormed 16 = true ∧ (Instr.clone 15 15).wellFormed 16 = true ∧
    (⟨0x000130f2, [0xff]⟩ : Request).wellFormed = true ∧
    decode 16 ⟨0x000130f2, [0xff]⟩ = .cmd (.update 15 3 [0xff]) := by decide

/-- ResetWritesEveryState: a reset that cuts a DIGEST short. -/
theorem witness_reset :
    (block abc finished [.reset (some ⟨0x00000004, []⟩), req 0x00000001]).inputs =
      .reset (some ⟨0x00000004, []⟩) :: [req 0x00000001] := rfl

/-- ContextsAreDeadAfterReset, ResetMeetsTheInvariant: the smallest and the largest block. -/
theorem witness_nctx :
    (0 : CtxIx).val < 1 ∧ (15 : CtxIx).val < 16 ∧ (1 ≤ 1 ∧ 1 ≤ 16) ∧ (1 ≤ 16 ∧ 16 ≤ 16) := by decide

/-- StepKeepsTheInvariant: a state that meets the invariant, with a context of each kind of life, and steps. -/
theorem witness_invariant :
    ({ atPort with ctxs := [abcDead, finished, Context.reset, Context.created] } : State).Inv ∧
    (after (step { atPort with ctxs := [abcDead, finished, Context.reset, Context.created] })).isSome
      = true := by decide

/-- CreateMakesAFreshContext, DestroyScrubsTheContext, UpdateAbsorbsThePayload, UpdateStoresOnlyThePayload, DigestIntoFinalizes at OUTCAP = 32, DigestFinalizesAndDestroys, CloneCopiesTheContext. -/
theorem witness_live :
    (block abc pos63).ctx? 0 = some abc ∧ (block abc pos63).ctx? 1 = some pos63 ∧
    abc.des = false ∧ abc.fin = false ∧ pos63.des = false ∧ pos63.fin = false ∧
    abc.life = .active ∧ 32 ≤ (32 : BitVec 16).toNat := by decide

/-- UpdateStoresOnlyThePayload: with POS = 63 two bytes go to offsets 63 and 0, and offset 1 is left. -/
theorem witness_update_offsets :
    (after (exec (.update 1 0 [7, 8]) (block abc pos63))).isSome = true ∧
    (∀ j, j < 2 → (pos63.pos.val + j) % 64 ≠ (1 : Fin 64).val) ∧
    (pos63.pos.val + 0) % 64 = (63 : Fin 64).val ∧ (pos63.pos.val + 1) % 64 = (0 : Fin 64).val ∧
    2 ≤ 0 + 64 := by decide +kernel

/-- UpdateStoresOnlyThePayload's last clause: a finished context, and an ITYP that is not 0. -/
theorem witness_update_error :
    finished.life ≠ .active ∧ (1 : BitVec 2) ≠ 0 ∧
    (after (exec (.update 0 1 [7]) (block abc finished))).isSome = true ∧
    (after (exec (.update 1 0 [7]) (block abc finished))).isSome = true := by decide

/-- UpdateIsChunkInvariant: the two payloads together at their bound. -/
theorem witness_chunks :
    (List.replicate 65535 (0x61 : Byte)).length + ([] : List Byte).length ≤ 65535 := by
  simp only [List.length_replicate]; decide

/-- DestroyScrubsTheContext's last clause. -/
theorem witness_destroyed :
    (block abc Context.reset).Inv ∧ (block abc Context.reset).ctx? 1 = some Context.reset ∧
    Context.reset.des = true := by decide

/-- ErrorsInPriorityOrder: a context for each clause, ITYP = 1 and OUTCAP = 31. -/
theorem witness_errors :
    Context.reset.des = true ∧ (finished.des = false ∧ finished.fin = true) ∧
    (abc.des = false ∧ abc.fin = false) ∧ (1 : BitVec 2) ≠ 0 ∧ (31 : BitVec 16).toNat < 32 ∧
    (block abc finished).ctx? 0 = some abc ∧ (block abc finished).ctx? 1 = some finished ∧
    (block abc Context.reset).ctx? 1 = some Context.reset ∧
    (after (exec (.digest 1) (block abc Context.reset))).isSome = true := by decide

/-- MissingContextIsIllegal: an index at NCTX. -/
theorem witness_missing : (2 : CtxIx) ∈ (Instr.clone 0 2).named ∧ (block abc abc).nctx ≤ 2 := by decide

/-- FailedCommandChangesNothing. -/
theorem witness_failed :
    (after (step (block abc Context.reset [req 0x00000014]))).map State.responses =
      some ((block abc Context.reset).responses ++ [⟨.destroyed, []⟩]) ∧ Code.destroyed ≠ .ok := by
  decide

/-- LifecycleFollowsItsTable: a command and an illegal word on a live context. -/
theorem witness_lifecycle :
    decode (block abc abc).nctx ⟨0x00000105, []⟩ = .cmd (.clone 0 1) ∧
    (block abc abc).ctx? (Instr.clone 0 1).ctx = some abc ∧
    decode (block abc abc).nctx ⟨0x00000000, []⟩ = .illegal .opcode ∧
    (⟨0x00000105, []⟩ : Request).wellFormed = true ∧ (⟨0x00000000, []⟩ : Request).wellFormed = true := by
  decide

/-- CodesEachCommandCanReport: the ends of the range, a code in the table and one outside it. -/
theorem witness_codes : (1 ≤ 1 ∧ 1 ≤ 6) ∧ (1 ≤ 6 ∧ 6 ≤ 6) ∧
    Code.illegalCommand ∈ canReport 1 ∧ Code.destroyed ∉ canReport 6 := by decide

/-- WritersOfEachField: each field does change. -/
theorem witness_writers :
    after (exec (.create 1) (block abc Context.reset)) =
      some { block abc fresh with responses := [⟨.ok, []⟩] } ∧
    fresh ≠ Context.reset ∧ fresh.des ≠ Context.reset.des ∧
    after (exec (.clone 1 0) (block abc finished)) =
      some { block finished finished with responses := [⟨.ok, []⟩] } ∧
    finished.fin ≠ abc.fin ∧
    after (exec (.update 1 0 [0x61, 0x62, 0x63]) (block abc fresh)) =
      some { block abc abc with responses := [⟨.ok, []⟩] } ∧
    (abc.pos ≠ fresh.pos ∨ abc.tlen ≠ fresh.tlen) := by decide

/-- CommandReadsOneContextAndWritesOne: two states that differ in the destination, and two that differ in the context not named. -/
theorem witness_named :
    (block abc fresh).nctx = (block abc finished).nctx ∧
    (∀ c ∈ (Instr.clone 0 1).named, c.val < (block abc fresh).nctx) ∧
    (block abc fresh).ctx? (Instr.clone 0 1).ctx = (block abc finished).ctx? (Instr.clone 0 1).ctx ∧
    block abc fresh ≠ block abc finished ∧
    (after (exec (.clone 0 1) (block abc fresh))).isSome = true ∧
    (after (exec (.clone 0 1) (block abc finished))).isSome = true ∧
    (after (exec (.update 0 0 [1]) (block abc fresh))).isSome = true ∧
    (after (exec (.update 0 0 [1]) (block abc finished))).isSome = true := by decide

/-- CommandsOnDifferentContextsCommute. -/
theorem witness_commute :
    (∀ c, c ∈ (Instr.update 0 0 [1]).named → c ∉ (Instr.destroy 1).named) ∧
    ((after (exec (.update 0 0 [1]) (block abc fresh))).bind
      (fun t => after (exec (.destroy 1) t))).isSome = true ∧
    ((after (exec (.destroy 1) (block abc fresh))).bind
      (fun t => after (exec (.update 0 0 [1]) t))).isSome = true := by decide

/-- HiddenStateNeverShows: states that differ in dead bytes, in a finished context's POS, in a dead context's words and in the scratch. -/
theorem witness_hidden :
    (block abc finished [req 0x00000004]).SameOutside
      { block abcDead { finished with pos := 9, buf := [] } [req 0x00000004] with
        kernel := ⟨Vector.replicate 64 1, iv⟩ } ∧
    (block Context.reset fresh).SameOutside (block { Context.reset with h := iv, tlen := 5 } fresh) := by
  refine ⟨⟨.cons ?_ (.cons ?_ .nil), rfl, rfl⟩, ⟨.cons ?_ (.cons ?_ .nil), rfl, rfl⟩⟩ <;>
    unfold Context.SameOutside <;> decide

/-- RunAnswersEveryRequest. -/
theorem witness_run :
    (block abc fresh [req 0x00000001, req 0x00000004]).inputs =
      [⟨0x00000001, []⟩, ⟨0x00000004, []⟩].map .request ∧
    (∀ r ∈ [(⟨0x00000001, []⟩ : Request), ⟨0x00000004, []⟩], r.wellFormed = true) := by decide

/-- EqualContextsAnswerAlike. -/
theorem witness_equal :
    (block abc abc).ctx? 0 = some abc ∧ (block abc abc).ctx? 1 = some abc ∧
    (after (exec (.destroy 0) (block abc abc))).isSome = true ∧
    (after (exec (.destroy 1) (block abc abc))).isSome = true := by decide

/-- PrimitivesBitByBit: the ends of both ranges. -/
theorem witness_bits : (0 < 32 ∧ 31 < 32) ∧ (31 + 0 ≤ 31 ∧ ¬ 31 + 1 ≤ 31) := by decide

/-- ByteViewsAreBigEndian: the offsets of the last word, the first byte of the length field and the byte before it, the last word of the digest. -/
theorem witness_views :
    (∀ j, j < 4 → (Fin.ofNat 64 (60 + j)).val = 4 * (15 : Fin 16).val + j) ∧
    56 ≤ (56 : Fin 64).val ∧ ¬ 56 ≤ (55 : Fin 64).val ∧
    iv.toList[7]? = some 0x5be0cd19 := by decide

/-- CanonicalBuffersAreTheirBytes. -/
theorem witness_canonical : Memory.wf [(0, 1), (63, 0xff)] = true ∧
    Memory.bytes [(0, 1), (63, 0xff)] = Memory.bytes [(0, 1), (63, 0xff)] := by decide

/-- ScheduleRecurrence: its ends; SC2's first expanded word. -/
theorem witness_schedule : (16 ≤ 16 ∧ 16 < 64) ∧ (16 ≤ 63 ∧ 63 < 64) ∧
    (scheduleNext (Vector.replicate 64 0xffffffff) 0) = 0x203ffffc := by decide

/-- ExtraBlockFromOffset56, LengthFieldIsTheBitCount: where the clauses meet. -/
theorem witness_extra_block :
    56 ≤ (56 : Fin 64).val ∧ (55 : Fin 64).val ≤ 55 ∧
    needsExtraBlock 56 = true ∧ needsExtraBlock 55 = false := by decide

/-- ContextTracksItsStream, DigestOfAStreamIsItsSha256: "abc" absorbed, and the empty stream. -/
theorem witness_stream : Reference.Holds abc [0x61, 0x62, 0x63] ∧ Reference.Holds fresh [] := by
  unfold Reference.Holds; decide

/-- ContextTracksItsStream: its three commands do answer. -/
theorem witness_stream_commands :
    (after (exec (.create 0) (block abc fresh))).isSome = true ∧
    (after (exec (.update 0 0 [1]) (block abc fresh))).isSome = true ∧
    (after (exec (.clone 0 1) (block abc fresh))).isSome = true := by decide

/-- HashOfAnyMessageIsItsSha256: "a", "bc" and the empty chunk, from a state whose context is finished. -/
theorem witness_hash :
    (block finished fresh [req 0x00000001, req 0x00010002 [0x61], req 0x00020002 [0x62, 0x63],
      req 0x00000002, req 0x00000004]).inputs =
      .request (encode (.create 0)) ::
        ([[0x61], [0x62, 0x63], []].map fun d => .request (encode (.update 0 0 d))) ++
        .request (encode (.digest 0)) :: [] ∧
    (0 : CtxIx).val < (block finished fresh).nctx ∧
    (∀ d ∈ ([[0x61], [0x62, 0x63], []] : List (List Byte)), d.length ≤ 65535) := by decide

end Sys2Proof.Tests
end

section
/-! SUPPORT. The digest of a stream: PROCESS is the reference compression, absorbing and finalization compress the blocks of the padded stream, and a run of encoded commands hashes a message (O48, O49). -/

namespace Sys2Proof.Proofs

open Sys2Proof.Machine

/-! ## PROCESS is the reference compression (spec/41_compression_kernel.md R143 to R152) -/

theorem rotr_eq_rotateRight (x : Word) (n : Nat) : rotr x n = x.rotateRight n := rfl

/-- R122: where the two halves of the choice are never both 1, "xor" and "or" agree. -/
theorem choice_eq_or (e f g : Word) : choice e f g = (e &&& f) ||| (~~~e &&& g) := by
  refine BitVec.eq_of_getElem_eq fun k hk => ?_
  cases he : e[k] <;> simp [choice, he]

theorem majority_eq_or (a b c : Word) :
    majority a b c = (a &&& b) ||| (a &&& c) ||| (b &&& c) := by
  refine BitVec.eq_of_getElem_eq fun k hk => ?_
  cases ha : a[k] <;> cases hb : b[k] <;> simp [majority, ha, hb]

theorem roundStep_eq_round (r : Words) (k w : Word) : roundStep r k w = Reference.round r k w := by
  simp only [roundStep, roundT1, roundT2, choice_eq_or, majority_eq_or, add32, bigSigma0, bigSigma1,
    rotr_eq_rotateRight, Reference.round]

/-- A property of a loop's state that holds before the loop and is kept by every turn holds after it. -/
theorem foldl_finRange_induction {α : Type} {n : Nat} (f : α → Fin n → α) {a : α}
    (P : Nat → α → Prop) (start : P 0 a) (turn : ∀ (i : Fin n) (b : α), P i.val b → P (i.val + 1) (f b i)) :
    P n ((List.finRange n).foldl f a) := by
  induction n with
  | zero => exact start
  | succ n ih =>
    rw [List.finRange_succ_last, List.foldl_append, List.foldl_map]
    exact turn (Fin.last n) _ (ih _ fun i b h => turn i.castSucc b h)

/-! ### The sliding window -/

/-- The reference's window of 16 schedule words, one round later. -/
def slide (win : List Word) : List Word := win.drop 1 ++ [Reference.nextWord win]

/-- The schedule word the reference takes in round `n`. -/
def windowWord (win : List Word) (n : Nat) : Word := (slide^[n] win).getD 0 0

theorem length_slide_iterate {win : List Word} (h : win.length = 16) (n : Nat) :
    (slide^[n] win).length = 16 := by
  induction n generalizing win with
  | zero => exact h
  | succ n ih => exact ih (by simp [slide, h])

/-- The word at place `j` of the window after `n` rounds is the one taken `j` rounds later. -/
theorem getD_slide_iterate {win : List Word} (h : win.length = 16) (n j : Nat) (hj : j < 16) :
    (slide^[n] win).getD j 0 = windowWord win (n + j) := by
  induction j generalizing n with
  | zero => rfl
  | succ j ih =>
    have hl := length_slide_iterate h n
    have shifted : (slide (slide^[n] win)).getD j 0 = (slide^[n] win).getD (j + 1) 0 := by
      simp only [slide, List.getD_eq_getElem?_getD, List.getElem?_drop, Nat.add_comm 1,
        List.getElem?_append_left (show j < ((slide^[n] win).drop 1).length by simp [hl]; omega)]
    rw [← shifted, ← Function.iterate_succ_apply' slide, ih _ (by omega), Nat.succ_add_eq_add_succ]

/-- R143: the first sixteen words are the window's own. -/
theorem windowWord_of_lt {win : List Word} (h : win.length = 16) {n : Nat} (hn : n < 16) :
    windowWord win n = win.getD n 0 := by
  rw [← Nat.zero_add n, ← getD_slide_iterate h 0 n hn]
  simp

/-- R144: the window's words obey the schedule's recurrence. -/
theorem windowWord_add_sixteen {win : List Word} (h : win.length = 16) (n : Nat) :
    windowWord win (16 + n) = sigma1 (windowWord win (14 + n)) + windowWord win (9 + n) +
      sigma0 (windowWord win (1 + n)) + windowWord win n := by
  have hl := length_slide_iterate h n
  have last : windowWord win (16 + n) = Reference.nextWord (slide^[n] win) := by
    rw [show 16 + n = (n + 1) + 15 by omega, ← getD_slide_iterate h _ _ (by omega),
      Function.iterate_succ_apply']
    simp [slide, List.getD_eq_getElem?_getD, hl]
  rw [last]
  simp only [Reference.nextWord, getD_slide_iterate h n _ (by decide : 14 < 16),
    getD_slide_iterate h n _ (by decide : 9 < 16), getD_slide_iterate h n _ (by decide : 1 < 16),
    getD_slide_iterate h n _ (by decide : 0 < 16), Nat.add_comm n, Nat.zero_add,
    sigma0, sigma1, rotr_eq_rotateRight, shr]

theorem justInTime_eq_foldl (ks win : List Word) (r : Words) :
    Reference.justInTime ks win r =
      (List.finRange ks.length).foldl (fun r i => Reference.round r ks[i] (windowWord win i.val)) r := by
  induction ks generalizing win r with
  | nil => rfl
  | cons k ks ih =>
    rw [Reference.justInTime, ih]
    change _ = List.foldl _ r (List.finRange (ks.length + 1))
    rw [List.finRange_succ, List.foldl_cons, List.foldl_map]
    rfl

/-! ### The kernel's schedule and rounds -/

/-- R143. -/
theorem scheduleLoad_getElem (m : Memory) (w : Vector Word 64) (i : Fin 16) :
    (scheduleLoad m w)[i.val] = be32Load m i := by
  have loaded := foldl_finRange_induction (a := w)
    (fun (w : Vector Word 64) (i : Fin 16) => w.set i.val (be32Load m i))
    (fun n w => ∀ i : Fin 16, i.val < n → w[i.val] = be32Load m i)
    (fun i hi => absurd hi (by omega)) (fun j w hw i hi => by
      rw [Vector.getElem_set]
      split
      · next e => rw [Fin.ext e]
      · next e => exact hw i (by omega))
  exact loaded i i.isLt

/-- R144: the expanded schedule is any sequence that starts as the loaded words do and obeys the recurrence. -/
theorem scheduleExpand_getElem (f : Nat → Word) (w : Vector Word 64)
    (start : ∀ i (h : i < 16), w[i] = f i)
    (next : ∀ t, f (16 + t) = sigma1 (f (14 + t)) + f (9 + t) + sigma0 (f (1 + t)) + f t)
    (i : Nat) (hi : i < 64) : (scheduleExpand w)[i] = f i := by
  have expanded := foldl_finRange_induction (a := w)
    (fun (w : Vector Word 64) (t : Fin 48) => w.set (16 + t.val) (scheduleNext w t))
    (fun n w => ∀ i (h : i < 64), i < 16 + n → w[i] = f i)
    (fun i _ hi => start i hi) (fun t w hw i h hi => by
      rw [Vector.getElem_set]
      split
      · next e =>
        subst e
        simp only [scheduleNext, add32, next]
        rw [hw _ _ (by omega), hw _ _ (by omega), hw _ _ (by omega), hw _ _ (by omega)]
      · next e => exact hw i h (by omega))
  exact expanded i hi hi

theorem wordsOf_bytes (m : Memory) :
    Reference.wordsOf m.bytes = (List.finRange 16).map (be32Load m) := rfl

/-- R143, R144: the kernel's schedule is the words the reference's window lets go, whatever the scratch held. -/
theorem schedule_getElem (m : Memory) (w : Vector Word 64) (i : Nat) (hi : i < 64) :
    (scheduleExpand (scheduleLoad m w))[i] = windowWord (Reference.wordsOf m.bytes) i := by
  have hl : (Reference.wordsOf m.bytes).length = 16 := by simp [wordsOf_bytes]
  refine scheduleExpand_getElem _ _ (fun i h => ?_) (windowWord_add_sixteen hl) i hi
  rw [scheduleLoad_getElem m w ⟨i, h⟩, windowWord_of_lt hl h]
  simp [wordsOf_bytes, List.getD_eq_getElem?_getD, h]

/-- R150: the kernel's rounds over the finished schedule. -/
theorem compress_regs (x : Context) (k : Kernel) : (k.compress x).regs =
    Reference.justInTime roundConstants (Reference.wordsOf x.buf.bytes) x.h := by
  simp only [Kernel.compress, rounds, schedule_getElem, roundStep_eq_round, justInTime_eq_foldl]
  rfl

/-- R152: PROCESS writes the reference's compression of the buffer into `H`. -/
theorem process_h_eq_compress (s : Work) :
    (process s).1.h = Reference.compress s.1.h s.1.buf.bytes := by
  rw [process_h, compress_regs]
  rfl

/-! ## The bytes of a buffer (spec/20_memory.md R51, spec/40_word_primitives.md R131) -/

@[simp] theorem length_bytes (m : Memory) : m.bytes.length = 64 := by simp [Memory.bytes]

@[simp] theorem getElem_bytes (m : Memory) (i : Nat) (h : i < m.bytes.length) :
    m.bytes[i] = m.read ⟨i, by simpa using h⟩ := by simp [Memory.bytes]

@[simp] theorem length_validBytes (x : Context) : x.validBytes.length = x.pos.val := by
  simp [Context.validBytes, x.pos.isLt.le]

/-- R23: a byte stored at the cursor joins the valid bytes before it. -/
theorem take_bytes_byteStore (m : Memory) (p : Fin 64) (v : Byte) :
    (byteStore m p v).bytes.take (p.val + 1) = m.bytes.take p.val ++ [v] := by
  refine List.ext_getElem (by simp) fun i hi _ => ?_
  have hp : i ≤ p.val := by simp at hi; omega
  obtain rfl | hlt := hp.eq_or_lt
  · simp [read_byteStore, p.isLt.le]
  · simp [read_byteStore, Fin.ext_iff, hlt, hlt.ne]

/-- R174: the padded buffer is the valid bytes, 0x80 and zeros. -/
theorem bytes_padded (x : Context) : (padded x).buf.bytes =
    x.validBytes ++ 0x80 :: List.replicate (63 - x.pos.val) 0 := by
  refine List.ext_getElem (by simp; omega) fun i hi _ => ?_
  obtain hlt | rfl | hgt := lt_trichotomy i x.pos.val
  · simp [read_padded, hlt, Context.validBytes]
  · simp [read_padded]
  · simp [read_padded, List.getElem_append, List.getElem_cons, Fin.ext_iff, hgt.not_gt, hgt.ne',
      show i - x.pos.val ≠ 0 by omega]

@[simp] theorem length_bytesOfDWord (v : DWord) : (Reference.bytesOfDWord v).length = 8 := by
  simp [Reference.bytesOfDWord]

/-- R131: the bytes a length store leaves and the bytes it writes. -/
theorem read_be64Store (m : Memory) (v : DWord) :
    (∀ o : Fin 64, o.val < 56 → (be64Store m v).read o = m.read o) ∧
    ∀ j : Fin 8, (be64Store m v).read (lenOffset j) = byteOfDWord v j := by
  have stored := foldl_finRange_induction (a := m)
    (fun (m : Memory) (k : Fin 8) => byteStore m (lenOffset k) (byteOfDWord v k))
    (fun n b => (∀ o : Fin 64, o.val < 56 → b.read o = m.read o) ∧
      ∀ j : Fin 8, j.val < n → b.read (lenOffset j) = byteOfDWord v j)
    ⟨fun _ _ => rfl, fun j hj => absurd hj (by omega)⟩
    (fun k b ⟨kept, written⟩ => by
      refine ⟨fun o ho => ?_, fun j hj => ?_⟩ <;>
        simp only [read_byteStore, lenOffset, Config.padOffset, Fin.ext_iff]
      · rw [if_neg (by omega), kept o ho]
      · split
        · next e => rw [show j = k from Fin.ext (by omega)]
        · next e => exact written j (by omega))
  exact ⟨stored.1, fun j => stored.2 j j.isLt⟩

/-- R131: the length field overwrites the buffer's last eight bytes. -/
theorem bytes_be64Store (m : Memory) (v : DWord) :
    (be64Store m v).bytes = m.bytes.take 56 ++ Reference.bytesOfDWord v := by
  refine List.ext_getElem (by simp) fun i hi _ => ?_
  obtain ⟨kept, written⟩ := read_be64Store m v
  rw [getElem_bytes]
  by_cases h : i < 56
  · simp [kept, h]
  · have hi : i < 64 := by simpa using hi
    rw [show (⟨i, hi⟩ : Fin 64) = lenOffset ⟨i - 56, by omega⟩ from
      Fin.ext (by simp only [lenOffset, Config.padOffset]; omega), written]
    simp [h, List.getElem_append, Reference.bytesOfDWord, byteOfDWord]

theorem bytes_zeroed : Memory.zeroed.bytes = List.replicate 64 0 := by decide

theorem digestBytes_eq_bytesOfWords (h : Words) : digestBytes h = Reference.bytesOfWords h := rfl

/-! ## The blocks of a stream (spec/42_engine_commands.md R173) -/

/-- A stream shorter than a block has no whole block. -/
theorem foldBlocks_of_length_lt (h : Words) {m : List Byte} (hm : m.length < 64) :
    Reference.foldBlocks h m = h := by
  simp [Reference.foldBlocks, Nat.div_eq_of_lt hm]

theorem rest_of_length_lt {m : List Byte} (hm : m.length < 64) : Reference.rest m = m := by
  simp [Reference.rest, Nat.div_eq_of_lt hm]

/-- The first block of a stream is compressed before the others. -/
theorem foldBlocks_block_append (h : Words) {b : List Byte} (hb : b.length = 64) (m : List Byte) :
    Reference.foldBlocks h (b ++ m) = Reference.foldBlocks (Reference.compress h b) m := by
  have later (n : Nat) : Reference.block (b ++ m) (n + 1) = Reference.block m n := by
    rw [Reference.block, Nat.mul_succ, Nat.add_comm, ← hb, List.drop_length_add_append, hb]
    rfl
  have first : Reference.block (b ++ m) 0 = b := by simp [Reference.block, ← hb]
  have count : (b ++ m).length / 64 = m.length / 64 + 1 := by rw [List.length_append, hb]; omega
  simp only [Reference.foldBlocks, count, List.range_succ_eq_map, List.map_cons, List.map_map,
    List.foldl_cons, Function.comp_def, later, first]

theorem rest_block_append {b : List Byte} (hb : b.length = 64) (m : List Byte) :
    Reference.rest (b ++ m) = Reference.rest m := by
  have count : 64 * ((b ++ m).length / 64) = b.length + 64 * (m.length / 64) := by
    rw [List.length_append, hb]; omega
  rw [Reference.rest, count, List.drop_length_add_append]
  rfl

/-- A stream of whole blocks only. -/
theorem foldBlocks_flatten (h : Words) {bs : List (List Byte)} (hbs : ∀ b ∈ bs, b.length = 64) :
    Reference.foldBlocks h bs.flatten = bs.foldl Reference.compress h := by
  induction bs generalizing h with
  | nil => exact foldBlocks_of_length_lt h (by simp)
  | cons b bs ih =>
    rw [List.flatten_cons, foldBlocks_block_append h (hbs b (by simp)),
      ih _ fun c hc => hbs c (by simp [hc]), List.foldl_cons]

/-- What a stream's whole blocks leave is all that a continuation needs. -/
theorem foldBlocks_append (h : Words) (m d : List Byte) : Reference.foldBlocks h (m ++ d) =
    Reference.foldBlocks (Reference.foldBlocks h m) (Reference.rest m ++ d) := by
  by_cases hm : m.length < 64
  · rw [foldBlocks_of_length_lt h hm, rest_of_length_lt hm]
  · have hb : (m.take 64).length = 64 := by simp; omega
    have ih := foldBlocks_append (Reference.compress h (m.take 64)) (m.drop 64) d
    rwa [← foldBlocks_block_append h hb, ← foldBlocks_block_append h hb, ← List.append_assoc,
      ← rest_block_append hb, List.take_append_drop] at ih
termination_by m.length
decreasing_by simp; omega

theorem rest_append (m d : List Byte) :
    Reference.rest (m ++ d) = Reference.rest (Reference.rest m ++ d) := by
  by_cases hm : m.length < 64
  · rw [rest_of_length_lt hm]
  · have hb : (m.take 64).length = 64 := by simp; omega
    have ih := rest_append (m.drop 64) d
    rwa [← rest_block_append hb, ← rest_block_append hb (m.drop 64), ← List.append_assoc,
      List.take_append_drop] at ih
termination_by m.length
decreasing_by simp; omega

theorem length_rest (m : List Byte) : (Reference.rest m).length = m.length % 64 := by
  simp [Reference.rest]; omega

/-! ## Absorbing a payload (R172) -/

/-- R172: a byte that does not fill the buffer is buffered. -/
theorem absorbByte_of_room {s : Work} (room : s.1.pos.val ≠ 63) (v : Byte) :
    (absorbByte s v).1.h = s.1.h ∧ (absorbByte s v).1.validBytes = s.1.validBytes ++ [v] := by
  refine ⟨by simp [absorbByte, room], ?_⟩
  rw [Context.validBytes, absorbByte_pos, absorbByte_buf, Nat.mod_eq_of_lt (by omega),
    take_bytes_byteStore]
  rfl

/-- R172: a byte that fills the buffer has it compressed and emptied. -/
theorem absorbByte_of_full {s : Work} (full : s.1.pos.val = 63) (v : Byte) :
    (absorbByte s v).1.h = Reference.compress s.1.h (s.1.validBytes ++ [v]) ∧
    (absorbByte s v).1.validBytes = [] := by
  have block : (byteStore s.1.buf s.1.pos v).bytes = s.1.validBytes ++ [v] := by
    rw [Context.validBytes, ← take_bytes_byteStore, full, List.take_of_length_le (by simp)]
  refine ⟨?_, by simp [Context.validBytes, absorbByte_pos, full]⟩
  rw [← block]
  simp [absorbByte, full, process_h_eq_compress]

/-- R172: absorbing compresses the whole blocks of the buffered bytes followed by the payload, and buffers what is left. -/
theorem absorb_blocks (s : Work) (d : List Byte) :
    (absorb s d).1.h = Reference.foldBlocks s.1.h (s.1.validBytes ++ d) ∧
    (absorb s d).1.validBytes = Reference.rest (s.1.validBytes ++ d) := by
  induction d generalizing s with
  | nil =>
    have hl : (s.1.validBytes ++ []).length < 64 := by simp
    rw [foldBlocks_of_length_lt _ hl, rest_of_length_lt hl, absorb_nil, List.append_nil]
    exact ⟨rfl, rfl⟩
  | cons v d ih =>
    obtain ⟨ih_h, ih_valid⟩ := ih (absorbByte s v)
    rw [absorb_cons, ih_h, ih_valid, List.append_cons]
    by_cases full : s.1.pos.val = 63
    · obtain ⟨h_eq, valid_eq⟩ := absorbByte_of_full full v
      have whole : (s.1.validBytes ++ [v]).length = 64 := by simp [full]
      rw [h_eq, valid_eq, foldBlocks_block_append _ whole, rest_block_append whole]
      exact ⟨rfl, rfl⟩
    · obtain ⟨h_eq, valid_eq⟩ := absorbByte_of_room full v
      rw [h_eq, valid_eq]
      exact ⟨rfl, rfl⟩

/-! ## Finalization (R174 to R176) -/

/-- R176: `TLEN *64 8` keeps the low 61 bits of TLEN above three zeros. -/
theorem lenField_eq_bitCount (tlen : DWord) : lenField tlen = Reference.bitCount tlen := by
  refine BitVec.eq_of_toNat_eq (Eq.trans ?_ (BitVec.toNat_append (tlen.extractLsb' 0 61) 0#3).symm)
  simp [lenField, Nat.shiftLeft_eq]
  omega

theorem bitCount_ofNat (n : Nat) :
    Reference.bitCount (BitVec.ofNat 64 n) = BitVec.ofNat 64 (8 * n) := by
  rw [← lenField_eq_bitCount]
  refine BitVec.eq_of_toNat_eq ?_
  simp [lenField]
  omega

/-- R174: the padded buffer as far as the length field's place. -/
theorem take_bytes_padded {x : Context} (room : x.pos.val ≤ 55) : (padded x).buf.bytes.take 56 =
    x.validBytes ++ 0x80 :: List.replicate (55 - x.pos.val) 0 := by
  rw [bytes_padded, List.take_append, length_validBytes,
    List.take_of_length_le (by rw [length_validBytes]; omega),
    show 56 - x.pos.val = 55 - x.pos.val + 1 by omega, List.take_succ_cons, List.take_replicate,
    min_eq_left (by omega)]

@[simp] theorem padded_h (x : Context) : (padded x).h = x.h := setBuf_h _ _

@[simp] theorem padded_tlen (x : Context) : (padded x).tlen = x.tlen := setBuf_tlen _ _

/-- R175: up to offset 55 the length field fits behind the 0x80 byte. -/
theorem extraBlock_of_le {pos : Fin 64} (room : pos.val ≤ 55) (s : Work) :
    extraBlock s pos = s := by
  have fits : needsExtraBlock pos = false := by simp [needsExtraBlock, Config.blockLen]; omega
  simp [extraBlock, fits]

/-- R175: from offset 56 on the padded block is compressed and a zeroed one started. -/
theorem extraBlock_of_gt {pos : Fin 64} (full : 55 < pos.val) (s : Work) :
    extraBlock s pos = ((process s).1.setBuf Memory.zeroed, (process s).2) := by
  have short : needsExtraBlock pos = true := by simp [needsExtraBlock, Config.blockLen]; omega
  simp [extraBlock, short]

/-- R174: the last block FINALIZE compresses is what the extra block leaves, with the length field over its end. -/
theorem finalize_h_eq_compress (s : Work) :
    (finalize s).1.h = Reference.compress (extraBlock (padded s.1, s.2) s.1.pos).1.h
      ((extraBlock (padded s.1, s.2) s.1.pos).1.buf.bytes.take 56 ++
        Reference.bytesOfDWord (Reference.bitCount s.1.tlen)) := by
  simp [finalize, process_h_eq_compress, bytes_be64Store, lenField_eq_bitCount]

/-- R174, R175: FINALIZE compresses the final blocks, two when the cursor leaves no room for the length field. -/
theorem finalize_h (s : Work) : (finalize s).1.h =
    (Reference.finalBlocks s.1.validBytes (Reference.bitCount s.1.tlen)).foldl
      Reference.compress s.1.h := by
  rw [finalize_h_eq_compress]
  by_cases room : s.1.pos.val ≤ 55
  · simp [extraBlock_of_le room, Reference.finalBlocks, room, take_bytes_padded room]
  · simp [extraBlock_of_gt (not_le.mp room), Reference.finalBlocks, room, bytes_padded, bytes_zeroed,
      process_h_eq_compress]

theorem length_of_mem_finalBlocks {v : List Byte} (hv : v.length < 64) {bits : DWord}
    {b : List Byte} (hb : b ∈ Reference.finalBlocks v bits) : b.length = 64 := by
  unfold Reference.finalBlocks at hb
  split at hb
  · obtain rfl := List.mem_singleton.mp hb
    simp; omega
  · obtain rfl | hb := List.mem_cons.mp hb
    · simp; omega
    · obtain rfl := List.mem_singleton.mp hb
      simp

/-- R174: the message's unfinished block and its padding are the final blocks. -/
theorem rest_append_padding (m : List Byte) (bits : DWord) :
    Reference.rest m ++ Reference.padding m.length bits =
      (Reference.finalBlocks (Reference.rest m) bits).flatten := by
  have hl := length_rest m
  unfold Reference.finalBlocks Reference.padding
  split
  · rw [show (119 - m.length % 64) % 64 = 55 - (Reference.rest m).length by omega]
    simp
  · rw [show (119 - m.length % 64) % 64 = 63 - (Reference.rest m).length + 56 by omega,
      List.replicate_add]
    simp

/-- R174, R176: the blocks of a padded message are its own whole blocks and the final ones. -/
theorem sha256_eq_finalBlocks (m : List Byte) : Reference.sha256 m = Reference.bytesOfWords
    ((Reference.finalBlocks (Reference.rest m) (BitVec.ofNat 64 (8 * m.length))).foldl
      Reference.compress (Reference.foldBlocks iv m)) := by
  have hl : (Reference.rest m).length < 64 := by rw [length_rest]; omega
  rw [Reference.sha256, foldBlocks_append, rest_append_padding,
    foldBlocks_flatten _ fun b => length_of_mem_finalBlocks hl]

/-! ## The stream of a context (spec/10_state.md R27) -/

theorem holds_created : Reference.Holds Context.created [] := by
  unfold Reference.Holds; decide

theorem holds_updateWork {x : Context} {m : List Byte} (h : Reference.Holds x m) (k : Kernel)
    (d : List Byte) : Reference.Holds (updateWork (x, k) d).1 (m ++ d) := by
  obtain ⟨hdes, hfin, hh, hvalid, hpos, htlen⟩ := h
  obtain ⟨absorbed_h, absorbed_valid⟩ := absorb_blocks (x, k) d
  refine ⟨by simpa using hdes, by simpa using hfin, ?_, ?_, ?_, ?_⟩
  · rw [updateWork_h, absorbed_h, hh, hvalid, ← foldBlocks_append]
  · rw [rest_append, ← hvalid, ← absorbed_valid]
    rfl
  · rw [updateWork_pos, absorb_pos, hpos]
    simp
  · rw [updateWork_tlen, htlen, List.length_append, BitVec.ofNat_add]

/-- R174 to R176: finalization leaves the words of the stream's SHA-256. -/
theorem digestBytes_finalize {x : Context} {m : List Byte} (h : Reference.Holds x m) (k : Kernel) :
    digestBytes (finalize (x, k)).1.h = Reference.sha256 m := by
  obtain ⟨-, -, hh, hvalid, -, htlen⟩ := h
  rw [digestBytes_eq_bytesOfWords, finalize_h, sha256_eq_finalBlocks, hh, hvalid, htlen,
    bitCount_ofNat]

/-! ## A command sent as its word (spec/30_encoding.md R90, spec/42_engine_commands.md R170) -/

/-- R93, R95: the encoder announces the payload it carries. -/
theorem wellFormed_encode {nctx : Nat} {i : Instr} (h : i.wellFormed nctx = true) :
    (encode i).wellFormed = true := by
  cases i with
  | update c t d =>
    have fits : d.length ≤ 65535 := of_decide_eq_true (Bool.and_eq_true_iff.mp h).2
    have announced : d.length % 65536 = d.length := Nat.mod_eq_of_lt (by omega)
    simp [encode, Request.wellFormed, payloadLen, announced]
  | _ => simp [encode, Request.wellFormed, payloadLen]

theorem inRange_ctx_of_wellFormed {nctx : Nat} {i : Instr} (h : i.wellFormed nctx = true) :
    CtxIx.inRange nctx i.ctx = true := by
  cases i with
  | update c t d => exact (Bool.and_eq_true_iff.mp h).1
  | clone a b => exact (Bool.and_eq_true_iff.mp h).1
  | _ => exact h

/-- R86 to R88: the fields every encoded word has. -/
theorem encodedFields (i : Instr) : Laws.EncodedFields.Statement i := by
  cases i with
  | create c => exact Laws.EncodedFields.create c
  | update c t d => exact Laws.EncodedFields.update c t d
  | digestInto c n => exact Laws.EncodedFields.digestInto c n
  | digest c => exact Laws.EncodedFields.digest c
  | clone a b => exact Laws.EncodedFields.clone a b
  | destroy c => exact Laws.EncodedFields.destroy c

/-- R80 to R91: the decoder reads a command back from the request that carries it. -/
theorem decode_encode {nctx : Nat} {i : Instr} (h : i.wellFormed nctx = true) :
    decode nctx (encode i) = .cmd i := by
  have hctx := inRange_ctx_of_wellFormed h
  have passed : decode nctx (encode i) = decodeOp nctx (encode i) := by
    obtain ⟨-, hfield, hrsv, -⟩ := encodedFields i
    simp [decode, hfield, hrsv, hctx]
  rw [passed]
  cases i with
  | clone a b =>
    have hdst : CtxIx.inRange nctx b = true := (Bool.and_eq_true_iff.mp h).2
    simp [decodeOp, encode, whenZero, itypZero, immZero, hdst]
  | _ => simp [decodeOp, encode, whenZero, dstZero, itypZero, immZero]

/-- R170: a request the encoder built is taken and its command succeeds, if nothing stands against it. -/
theorem step_encode_of_success {s : State} {i : Instr} {rest : List Input} {x z : Context}
    (hin : s.inputs = .request (encode i) :: rest) (hwf : i.wellFormed s.nctx = true)
    (hx : s.ctx? i.ctx = some x) (hz : s.ctx? i.target = some z) (he : commandError i x = none) :
    ∃ t, step s = .next t ∧ t.inputs = rest ∧
      t.responses = s.responses ++ [⟨.ok, (commandEffect i (x, s.kernel)).2.2⟩] ∧
      t.ctx? i.target = some (commandEffect i (x, s.kernel)).1 := by
  refine ⟨succeeded i { s with inputs := rest } x, ?_, rfl, rfl, succeeded_ctx?_target i _ x hz⟩
  simp only [step, hin, wellFormed_encode hwf, if_true, runRequest, withInputs_nctx,
    decode_encode hwf]
  exact exec_of_success hx hz he

theorem commandError_update_of_holds {x : Context} {m : List Byte} (h : Reference.Holds x m)
    (c : CtxIx) (d : List Byte) : commandError (.update c 0 d) x = none := by
  obtain ⟨hdes, hfin, -⟩ := h
  simp [commandError_update, hdes, hfin]

theorem commandError_digest_of_holds {x : Context} {m : List Byte} (h : Reference.Holds x m)
    (c : CtxIx) : commandError (.digest c) x = none := by
  obtain ⟨hdes, hfin, -⟩ := h
  simp [commandError_digest, hdes, hfin]

theorem commandError_digestInto_of_holds {x : Context} {m : List Byte} (h : Reference.Holds x m)
    (c : CtxIx) {outcap : BitVec 16} (hcap : 32 ≤ outcap.toNat) :
    commandError (.digestInto c outcap) x = none := by
  obtain ⟨hdes, hfin, -⟩ := h
  simp [commandError_digestInto, hdes, hfin, hcap]

/-- Settles O48: finalization of a context that holds `m` compresses `m`'s final blocks. -/
theorem digestOfAStreamIsItsSha256 : Obligations.DigestOfAStreamIsItsSha256 := by
  intro s c x m hx hm
  have digest := digestBytes_finalize hm s.kernel
  refine ⟨fun outcap hcap => ?_, ?_⟩
  · refine ⟨_, exec_of_success hx hx (commandError_digestInto_of_holds hm c hcap), ?_⟩
    rw [succeeded_responses, commandEffect, digest]
  · refine ⟨_, exec_of_success hx hx (commandError_digest_of_holds hm c), ?_⟩
    rw [succeeded_responses, commandEffect, digest]

/-! ## Runs over encoded commands (spec/70_reset_and_hazards.md R247) -/

theorem run_succ_of_step {s t : State} (h : step s = .next t) (k : Nat) :
    Host.Core.run core (k + 1) s = Host.Core.run core k t := by
  have hs : core.step s = .next t := h
  simp only [Host.Core.run, hs]

/-- R97: a run of UPDATEs extends the stream its context holds by the payloads, answering OK to each. -/
theorem run_updates {c : CtxIx} {chunks : List (List Byte)} {rest : List Input} {s : State}
    {x : Context} {m : List Byte} (hfit : ∀ d ∈ chunks, d.length ≤ 65535)
    (hx : s.ctx? c = some x) (hm : Reference.Holds x m)
    (hin : s.inputs = (chunks.map fun d => .request (encode (.update c 0 d))) ++ rest) :
    ∃ t y, (∀ k, Host.Core.run core (chunks.length + k) s = Host.Core.run core k t) ∧ t.inputs = rest ∧
      t.responses = s.responses ++ List.replicate chunks.length ⟨.ok, []⟩ ∧
      t.ctx? c = some y ∧ Reference.Holds y (m ++ chunks.flatten) := by
  induction chunks generalizing s x m with
  | nil => exact ⟨s, x, fun k => by rw [List.length_nil, Nat.zero_add], hin, by simp, hx, by simpa using hm⟩
  | cons d chunks ih =>
    have hwf : (Instr.update c 0 d).wellFormed s.nctx = true := by
      simp [Instr.wellFormed, CtxIx.inRange, payloadFits, Config.maxChunk, ctx?_eq_some_lt hx,
        hfit d (by simp)]
    obtain ⟨u, hstep, hinputs, hresp_u, hy_u⟩ :=
      step_encode_of_success hin hwf hx hx (commandError_update_of_holds hm c d)
    obtain ⟨t, y, hrun, hrest, hresp, hy, hold⟩ := ih (fun e he => hfit e (by simp [he]))
      hy_u (holds_updateWork hm s.kernel d) hinputs
    refine ⟨t, y, fun k => ?_, hrest, ?_, hy, by simpa using hold⟩
    · rw [List.length_cons, Nat.succ_add, run_succ_of_step hstep, hrun]
    · simp [hresp, hresp_u, commandEffect, List.replicate_succ]

/-- Settles O49: CREATE starts the empty stream, the UPDATEs make it the message, DIGEST answers its SHA-256. -/
theorem hashOfAnyMessageIsItsSha256 : Obligations.HashOfAnyMessageIsItsSha256 := by
  intro s c chunks rest hc hfit hin
  have hwf {t : State} (ht : c.val < t.nctx) : CtxIx.inRange t.nctx c = true := decide_eq_true ht
  obtain ⟨z, hz⟩ := exists_ctx_of_lt hc
  obtain ⟨u, create, hinputs, hresp_u, hx⟩ :=
    step_encode_of_success (i := .create c) hin (hwf hc) hz hz rfl
  obtain ⟨v, x, updates, hdigest, hresp_v, hx, hold⟩ := run_updates hfit hx holds_created hinputs
  obtain ⟨t, digest, hrest, hresp, hy⟩ := step_encode_of_success (i := .digest c) hdigest
    (hwf (ctx?_eq_some_lt hx)) hx hx (commandError_digest_of_holds hold c)
  refine ⟨t, _, ?_, hrest, ?_, hy, ?_⟩
  · rw [run_succ_of_step create, updates 1, run_succ_of_step digest]
    rfl
  · simp [hresp, hresp_v, hresp_u, commandEffect, digestBytes_finalize hold, List.replicate_succ]
  · simp [commandEffect, Context.life]

end Sys2Proof.Proofs
end

section
/-! SUPPORT. What a step keeps and answers: the invariant from reset on (O13, O14), one answer for each request (O25), which command writes which field (O31), the stream a context holds (O47), and that no response shows hidden state (O34). -/

namespace Sys2Proof.Proofs

open Sys2Proof.Machine

/-! ## The opcode a command was decoded from (spec/30_encoding.md R88, R90) -/

theorem whenZero_eq_cmd {zero : Bool} {i j : Instr} :
    whenZero zero i = .cmd j ↔ zero = true ∧ i = j := by
  cases zero <;> simp [whenZero]

theorem opField_of_decodeOp {nctx : Nat} {r : Request} {i : Instr}
    (h : decodeOp nctx r = .cmd i) : (opField r.word).toNat = (Laws.opcode i).toNat := by
  unfold decodeOp at h
  dsimp only at h
  split at h
  case h_5 op =>
    split at h
    · obtain ⟨-, rfl⟩ := whenZero_eq_cmd.mp h
      exact op
    · cases h
  case h_7 => cases h
  all_goals
    next op =>
      obtain ⟨-, rfl⟩ := whenZero_eq_cmd.mp h
      exact op

theorem opField_of_decode {nctx : Nat} {r : Request} {i : Instr} (h : decode nctx r = .cmd i) :
    (opField r.word).toNat = (Laws.opcode i).toNat := by
  unfold decode at h
  split at h
  · cases h
  · split at h
    · cases h
    · exact opField_of_decodeOp h

theorem answersDigest_iff_opcode (i : Instr) :
    answersDigest i = true ↔ (Laws.opcode i).toNat = 3 ∨ (Laws.opcode i).toNat = 4 := by
  cases i <;> simp [answersDigest, Laws.opcode]

/-- R35: the commands that answer a digest, by the number of their word. -/
theorem answersDigest_iff_of_decode {nctx : Nat} {r : Request} {i : Instr}
    (h : decode nctx r = .cmd i) :
    answersDigest i = true ↔ r.word.toNat % 16 = 3 ∨ r.word.toNat % 16 = 4 := by
  rw [answersDigest_iff_opcode, ← opField_of_decode h, opField_toNat]

/-! ## What a command answers (spec/10_state.md R35) -/

theorem commandError_ne_ok {i : Instr} {x : Context} {e : Code} (h : commandError i x = some e) :
    e ≠ .ok := by
  rintro rfl
  cases i with
  | update c t d => rw [commandError_update] at h; split_ifs at h <;> cases h
  | digestInto c n => rw [commandError_digestInto] at h; split_ifs at h <;> cases h
  | digest c => rw [commandError_digest] at h; split_ifs at h <;> cases h
  | _ => cases h

theorem length_commandEffect_out (i : Instr) (w : Work) :
    (commandEffect i w).2.2.length = if answersDigest i then 32 else 0 := by
  cases i <;> rfl

/-- R35, R65: a command is answered once, with 32 bytes if it succeeds with a digest and none otherwise. -/
theorem exec_answers {i : Instr} {s t : State} (h : exec i s = .next t) :
    ∃ a, t.responses = s.responses ++ [a] ∧ t.inputs = s.inputs ∧ t.nctx = s.nctx ∧
      a.out.length = if a.code = .ok ∧ answersDigest i then 32 else 0 := by
  obtain ⟨-, rfl⟩ | ⟨x, z, -, -, ⟨e, he, rfl⟩ | ⟨-, rfl⟩⟩ := exec_cases h
  · exact ⟨_, rfl, rfl, rfl, by simp⟩
  · exact ⟨_, rfl, rfl, rfl, by simp [commandError_ne_ok he]⟩
  · exact ⟨_, rfl, rfl, succeeded_nctx i s x, by simp [length_commandEffect_out]⟩

/-- Settles O25: a request runs its command, which answers once, or is illegal and answered with no bytes. -/
theorem everyRequestGetsOneAnswer : Obligations.EveryRequestGetsOneAnswer := by
  intro s t r rest hin hstep
  obtain ⟨hnil, -⟩ | ⟨cut, rest', hreset, -⟩ | ⟨r', rest', hreq, -, hrun⟩ := step_cases hstep
  · rw [hin] at hnil; cases hnil
  · rw [hin] at hreset; cases hreset
  · rw [hin] at hreq
    cases hreq
    obtain ⟨why, -, rfl⟩ | ⟨i, hdecode, hexec⟩ := hrun
    · exact ⟨_, rfl, rfl, rfl, by simp⟩
    · obtain ⟨a, hresponses, hinputs, hnctx, hlength⟩ := exec_answers hexec
      exact ⟨a, hresponses, hinputs, hnctx,
        by simpa only [answersDigest_iff_of_decode hdecode] using hlength⟩

/-! ## The invariant at reset (spec/10_state.md R27 to R39) -/

theorem context_reset_inv : Context.reset.Inv := by decide

theorem resetWith_inv {nctx : Nat} (least : Config.minNctx ≤ nctx) (most : nctx ≤ Config.maxNctx) :
    (State.resetWith nctx).Inv := by
  have count : (State.resetWith nctx).nctx = nctx := List.length_replicate
  refine ⟨by rwa [count], by rwa [count], rfl, fun x hx => ?_, fun r hr => nomatch hr⟩
  obtain rfl := List.eq_of_mem_replicate hx
  exact context_reset_inv

/-- Settles O13: every context is the reset context, and `NCTX` = 16 is the upper bound. -/
theorem resetMeetsTheInvariant : Obligations.ResetMeetsTheInvariant :=
  ⟨fun _ least most => resetWith_inv least most, resetWith_inv (by decide) le_rfl⟩

theorem step_of_reset {s : State} {cut : Option Request} {rest : List Input}
    (hin : s.inputs = .reset cut :: rest) :
    step s = .next { s with inputs := rest }.hardReset := by
  simp only [step, hin]

/-- Settles O11: the step is the hard reset, which keeps the port and the answers. -/
theorem resetWritesEveryState : Obligations.ResetWritesEveryState := by
  intro s cut rest hin
  refine ⟨_, step_of_reset hin, by simp, fun x hx => ?_, fun i => ?_, rfl, rfl, rfl⟩
  · obtain rfl := List.eq_of_mem_replicate hx
    exact ⟨rfl, read_zeroed, rfl, rfl, rfl, rfl⟩
  · simp [Kernel.zero]

/-! ## The invariant over a step -/

theorem created_inv : Context.created.Inv := by decide

theorem scrub_inv {x : Context} (h : x.pos.val = x.tlen.toNat % 64) : x.scrub.Inv := by
  refine ⟨?_, by simpa using h, fun _ => ⟨scrub_h x, scrub_buf x⟩⟩
  rw [scrub_buf]
  exact wf_zeroed

/-- R27(d): the cursor and the length counter advance together. -/
theorem updateWork_inv {x : Context} (h : x.Inv) (live : x.des = false) (k : Kernel)
    (d : List Byte) : (updateWork (x, k) d).1.Inv := by
  obtain ⟨hwf, hpos, -⟩ := h
  refine ⟨by simpa using absorb_wf (x, k) d hwf, ?_, by simp [live]⟩
  rw [updateWork_pos, absorb_pos, updateWork_tlen, BitVec.toNat_add, BitVec.toNat_ofNat]
  dsimp only
  omega

theorem finalize_inv {x : Context} (h : x.Inv) (live : x.des = false) (k : Kernel) :
    (finalize (x, k)).1.Inv := by
  obtain ⟨hwf, hpos, -⟩ := h
  exact ⟨finalize_wf (x, k) hwf, by simpa using hpos, by simp [live]⟩

/-! A command that absorbs or finalizes meets no error only on a live, unfinished context (spec/60_exceptions.md R212, R213). -/

theorem commandError_update_eq_none {c : CtxIx} {t : BitVec 2} {d : List Byte} {x : Context} :
    commandError (.update c t d) x = none ↔ x.des = false ∧ x.fin = false ∧ t = 0#2 := by
  rw [commandError_update]; split_ifs <;> simp_all

theorem commandError_digestInto_eq_none {c : CtxIx} {n : BitVec 16} {x : Context} :
    commandError (.digestInto c n) x = none ↔ x.des = false ∧ x.fin = false ∧ 32 ≤ n.toNat := by
  rw [commandError_digestInto]; split_ifs <;> simp_all

theorem commandError_digest_eq_none {c : CtxIx} {x : Context} :
    commandError (.digest c) x = none ↔ x.des = false ∧ x.fin = false := by
  rw [commandError_digest]; split_ifs <;> simp_all

theorem commandEffect_context_inv {i : Instr} {x : Context} (h : x.Inv)
    (he : commandError i x = none) (k : Kernel) : (commandEffect i (x, k)).1.Inv := by
  cases i with
  | create c => exact created_inv
  | update c t d => exact updateWork_inv h (commandError_update_eq_none.mp he).1 k d
  | digestInto c n => exact finalize_inv h (commandError_digestInto_eq_none.mp he).1 k
  | digest c =>
    obtain ⟨-, hpos, -⟩ := finalize_inv h (commandError_digest_eq_none.mp he).1 k
    exact scrub_inv hpos
  | clone a b => exact h
  | destroy c =>
    obtain ⟨-, hpos, -⟩ := h
    exact scrub_inv hpos

/-- R149: every command leaves the scratch zero if it found it zero. -/
theorem commandEffect_kernel_zero (i : Instr) (x : Context) {k : Kernel} (h : k = Kernel.zero) :
    (commandEffect i (x, k)).2.1 = Kernel.zero := by
  cases i with
  | update c t d => exact absorb_kernel_zero (x, k) d h
  | digestInto c n => rfl
  | digest c => rfl
  | _ => exact h

theorem commandEffect_response_inv (i : Instr) (w : Work) :
    Response.Inv ⟨.ok, (commandEffect i w).2.2⟩ := by
  have hlength := length_commandEffect_out i w
  split at hlength
  · exact .inr ⟨rfl, hlength⟩
  · exact .inl (List.length_eq_zero_iff.mp hlength)

theorem respond_inv {s : State} (h : s.Inv) {code : Code} {out : List Byte}
    (hr : Response.Inv ⟨code, out⟩) : (s.respond code out).Inv := by
  obtain ⟨least, most, hkernel, hctxs, hresponses⟩ := h
  refine ⟨least, most, hkernel, hctxs, fun r hmem => ?_⟩
  obtain hold | hnew := List.mem_append.mp hmem
  · exact hresponses r hold
  · obtain rfl := List.mem_singleton.mp hnew
    exact hr

theorem respond_error_inv {s : State} (h : s.Inv) (code : Code) : (s.respond code []).Inv :=
  respond_inv h (.inl rfl)

theorem setCtx_setKernel_inv {s : State} (h : s.Inv) (c : CtxIx) {x : Context} (hx : x.Inv)
    {k : Kernel} (hk : k = Kernel.zero) : ((s.setCtx c x).setKernel k).Inv := by
  obtain ⟨least, most, -, hctxs, hresponses⟩ := h
  refine ⟨by simpa using least, by simpa using most, hk, fun y hmem => ?_, hresponses⟩
  obtain hold | rfl := List.mem_or_eq_of_mem_set hmem
  · exact hctxs y hold
  · exact hx

theorem kernel_zero_of_inv {s : State} (h : s.Inv) : s.kernel = Kernel.zero := by
  obtain ⟨-, -, hkernel, -, -⟩ := h
  exact hkernel

theorem context_inv_of_ctx? {s : State} (h : s.Inv) {c : CtxIx} {x : Context}
    (hx : s.ctx? c = some x) : x.Inv := by
  obtain ⟨-, -, -, hctxs, -⟩ := h
  exact hctxs x (List.mem_of_getElem? hx)

theorem succeeded_inv {i : Instr} {s : State} {x : Context} (h : s.Inv)
    (hx : s.ctx? i.ctx = some x) (he : commandError i x = none) : (succeeded i s x).Inv := by
  have hcontext := commandEffect_context_inv (context_inv_of_ctx? h hx) he s.kernel
  have hkernel := commandEffect_kernel_zero i x (kernel_zero_of_inv h)
  exact respond_inv (setCtx_setKernel_inv h i.target hcontext hkernel)
    (commandEffect_response_inv i (x, s.kernel))

theorem exec_inv {i : Instr} {s t : State} (h : s.Inv) (hexec : exec i s = .next t) : t.Inv := by
  obtain ⟨-, rfl⟩ | ⟨x, z, hx, -, ⟨e, -, rfl⟩ | ⟨he, rfl⟩⟩ := exec_cases hexec
  · exact respond_error_inv h _
  · exact respond_error_inv h e
  · exact succeeded_inv h hx he

theorem hardReset_inv {s : State} (h : s.Inv) : s.hardReset.Inv := by
  obtain ⟨least, most, -, -, hresponses⟩ := h
  obtain ⟨hleast, hmost, hkernel, hctxs, -⟩ := resetWith_inv least most
  exact ⟨hleast, hmost, hkernel, hctxs, hresponses⟩

/-- Settles O14: a reset meets the invariant again, and a command keeps it context by context. -/
theorem stepKeepsTheInvariant : Obligations.StepKeepsTheInvariant := by
  intro s t h hstep
  have taken (rest : List Input) : ({ s with inputs := rest } : State).Inv := h
  obtain ⟨-, rfl⟩ | ⟨cut, rest, -, rfl⟩ | ⟨r, rest, -, -, hrun⟩ := step_cases hstep
  · exact ⟨h, rfl⟩
  · exact ⟨hardReset_inv (taken rest), by simp⟩
  · obtain ⟨why, -, rfl⟩ | ⟨i, -, hexec⟩ := hrun
    · exact ⟨respond_error_inv (taken rest) _, rfl⟩
    · obtain ⟨a, -, -, hnctx, -⟩ := exec_answers hexec
      exact ⟨exec_inv (taken rest) hexec, hnctx⟩

/-! ## Which command writes which field (spec/10_state.md R34, R36) -/

/-- R70: a context is left as it is, or it is the command's target and holds the command's effect. -/
theorem exec_context_cases {i : Instr} {s t : State} {c : CtxIx} {x y : Context}
    (hexec : exec i s = .next t) (hx : s.ctx? c = some x) (hy : t.ctx? c = some y) :
    y = x ∨ i.target = c ∧ ∃ z, s.ctx? i.ctx = some z ∧
      y = (commandEffect i (z, s.kernel)).1 := by
  have same (h : t.ctx? c = s.ctx? c) : y = x := by
    rw [h, hx] at hy
    exact (Option.some.inj hy).symm
  obtain ⟨-, rfl⟩ | ⟨z, w, hz, hw, ⟨e, -, rfl⟩ | ⟨-, rfl⟩⟩ := exec_cases hexec
  · exact .inl (same rfl)
  · exact .inl (same rfl)
  · by_cases hc : c = i.target
    · subst hc
      rw [succeeded_ctx?_target i s z hw] at hy
      exact .inr ⟨rfl, z, hz, (Option.some.inj hy).symm⟩
    · exact .inl (same (succeeded_ctx?_ne i s z c hc))

/-- Settles O31: field by field of what each command leaves in its target. -/
theorem writersOfEachField : Obligations.WritersOfEachField := by
  intro i s t c x y hexec hx hy
  obtain rfl | ⟨rfl, z, hz, rfl⟩ := exec_context_cases hexec hx hy
  · simp
  refine ⟨fun _ => rfl, ?_⟩
  have own (h : i.ctx = i.target) : z = x := Option.some.inj (by rw [← hz, h, hx])
  cases i with
  | create c =>
    exact ⟨fun _ => .inl rfl, fun _ => .inr (.inl ⟨rfl, rfl⟩), fun _ => .inr (.inl ⟨rfl, rfl⟩)⟩
  | clone a b =>
    exact ⟨fun _ => .inr (.inr ⟨a, rfl⟩), fun _ => .inr (.inr ⟨a, z, rfl, hz, rfl⟩),
      fun _ => .inr (.inr ⟨a, z, rfl, hz, rfl⟩)⟩
  | update c ty d =>
    obtain rfl := own rfl
    exact ⟨fun _ => .inr (.inl ⟨ty, d, rfl⟩), fun h => absurd (updateWork_fin _ d) h,
      fun h => absurd (updateWork_des _ d) h⟩
  | digestInto c n =>
    obtain rfl := own rfl
    exact ⟨fun h => by simp [commandEffect] at h, fun _ => .inl ⟨finalize_fin _, .inl ⟨n, rfl⟩⟩,
      fun h => absurd (finalize_des _) h⟩
  | digest c =>
    obtain rfl := own rfl
    exact ⟨fun h => by simp [commandEffect] at h,
      fun _ => .inl ⟨by simp [commandEffect], .inr rfl⟩, fun _ => .inl ⟨scrub_des _, .inr rfl⟩⟩
  | destroy c =>
    obtain rfl := own rfl
    exact ⟨fun h => by simp [commandEffect] at h, fun h => absurd (scrub_fin _) h,
      fun _ => .inl ⟨scrub_des _, .inl rfl⟩⟩

/-! ## The stream a context holds (spec/10_state.md R27) -/

/-- A command that meets no error leaves its effect in its target. -/
theorem exec_target_of_success {i : Instr} {s t : State} {x z : Context}
    (hx : s.ctx? i.ctx = some x) (hz : s.ctx? i.target = some z) (he : commandError i x = none)
    (hexec : exec i s = .next t) :
    t.ctx? i.target = some (commandEffect i (x, s.kernel)).1 := by
  rw [exec_of_success hx hz he] at hexec
  cases hexec
  exact succeeded_ctx?_target i s x hz

/-- Settles O47: each command's effect holds the stream (`holds_created`, `holds_updateWork`), and stands in its target. -/
theorem contextTracksItsStream : Obligations.ContextTracksItsStream := by
  refine ⟨fun s t c x hx hexec => ?_, fun s t c x m data hx hm hexec => ?_,
    fun s t src dst x z m hx hz hm hexec => ?_⟩
  · exact ⟨_, exec_target_of_success (i := .create c) hx hx rfl hexec, holds_created⟩
  · exact ⟨_, exec_target_of_success (i := .update c 0 data) hx hx
      (commandError_update_of_holds hm c data) hexec, holds_updateWork hm s.kernel data⟩
  · exact ⟨_, exec_target_of_success (i := .clone src dst) hx hz rfl hexec, hm⟩

/-! ## Hidden state never shows (spec/10_state.md R38) -/

theorem context_sameOutside_refl (x : Context) : x.SameOutside x :=
  ⟨rfl, fun _ => ⟨rfl, rfl, fun _ => ⟨rfl, rfl, rfl⟩⟩⟩

/-- R38(c): of a destroyed context nothing but DES shows. -/
theorem sameOutside_of_destroyed {x y : Context} (hx : x.des = true) (hy : y.des = true) :
    x.SameOutside y :=
  ⟨hx.trans hy.symm, fun live => by simp [hx] at live⟩

theorem updateWork_validBytes (s : Work) (d : List Byte) :
    (updateWork s d).1.validBytes = (absorb s d).1.validBytes := rfl

/-- R38(a): absorbing reads the valid bytes and no others of the buffer. -/
theorem updateWork_sameOutside {x y : Context} (h : x.SameOutside y) (live : x.des = false)
    (unfinished : x.fin = false) (k l : Kernel) (d : List Byte) :
    (updateWork (x, k) d).1.SameOutside (updateWork (y, l) d).1 := by
  obtain ⟨hdes, hlive⟩ := h
  obtain ⟨hfin, hh, hopen⟩ := hlive live
  obtain ⟨hpos, htlen, hvalid⟩ := hopen unfinished
  obtain ⟨x_h, x_valid⟩ := absorb_blocks (x, k) d
  obtain ⟨y_h, y_valid⟩ := absorb_blocks (y, l) d
  refine ⟨by simpa using hdes, fun _ => ⟨by simpa using hfin, ?_, fun _ => ⟨?_, ?_, ?_⟩⟩⟩
  · rw [updateWork_h, updateWork_h, x_h, y_h, hh, hvalid]
  · refine Fin.ext ?_
    rw [updateWork_pos, updateWork_pos, absorb_pos, absorb_pos, hpos]
  · rw [updateWork_tlen, updateWork_tlen, htlen]
  · rw [updateWork_validBytes, updateWork_validBytes, x_valid, y_valid, hvalid]

/-- R38(a): finalization too reads only H, the valid bytes and TLEN. -/
theorem finalize_h_eq_of_sameOutside {x y : Context} (h : x.SameOutside y) (live : x.des = false)
    (unfinished : x.fin = false) (k l : Kernel) :
    (finalize (x, k)).1.h = (finalize (y, l)).1.h := by
  obtain ⟨-, hlive⟩ := h
  obtain ⟨-, hh, hopen⟩ := hlive live
  obtain ⟨-, htlen, hvalid⟩ := hopen unfinished
  rw [finalize_h, finalize_h, hh, htlen, hvalid]

/-- R38(b): of a finished context POS, TLEN and BUF no longer show. -/
theorem finalize_sameOutside {x y : Context} (h : x.SameOutside y) (live : x.des = false)
    (unfinished : x.fin = false) (k l : Kernel) :
    (finalize (x, k)).1.SameOutside (finalize (y, l)).1 := by
  have hh := finalize_h_eq_of_sameOutside h live unfinished k l
  obtain ⟨hdes, -⟩ := h
  exact ⟨by simpa using hdes, fun _ => ⟨by simp, hh, fun hfin => by simp at hfin⟩⟩

theorem lifecycleError_eq_of_sameOutside {x y : Context} (h : x.SameOutside y) :
    x.lifecycleError = y.lifecycleError := by
  obtain ⟨hdes, hlive⟩ := h
  cases hx : x.des with
  | true => simp [Context.lifecycleError, ← hdes, hx]
  | false =>
    obtain ⟨hfin, -⟩ := hlive hx
    simp [Context.lifecycleError, ← hdes, ← hfin]

theorem commandError_eq_of_sameOutside {x y : Context} (h : x.SameOutside y) (i : Instr) :
    commandError i x = commandError i y := by
  cases i <;> simp only [commandError, lifecycleError_eq_of_sameOutside h]

/-- R38: on contexts no response can tell apart a command leaves such contexts and answers the same bytes. -/
theorem commandEffect_sameOutside {i : Instr} {x y : Context} (h : x.SameOutside y)
    (he : commandError i x = none) (k l : Kernel) :
    (commandEffect i (x, k)).1.SameOutside (commandEffect i (y, l)).1 ∧
      (commandEffect i (x, k)).2.2 = (commandEffect i (y, l)).2.2 := by
  cases i with
  | create c => exact ⟨context_sameOutside_refl _, rfl⟩
  | update c t d =>
    obtain ⟨live, unfinished, -⟩ := commandError_update_eq_none.mp he
    exact ⟨updateWork_sameOutside h live unfinished k l d, rfl⟩
  | digestInto c n =>
    obtain ⟨live, unfinished, -⟩ := commandError_digestInto_eq_none.mp he
    exact ⟨finalize_sameOutside h live unfinished k l,
      congrArg digestBytes (finalize_h_eq_of_sameOutside h live unfinished k l)⟩
  | digest c =>
    obtain ⟨live, unfinished⟩ := commandError_digest_eq_none.mp he
    exact ⟨sameOutside_of_destroyed (scrub_des _) (scrub_des _),
      congrArg digestBytes (finalize_h_eq_of_sameOutside h live unfinished k l)⟩
  | clone a b => exact ⟨h, rfl⟩
  | destroy c => exact ⟨sameOutside_of_destroyed (scrub_des _) (scrub_des _), rfl⟩

/-! ### States no response can tell apart -/

theorem forall₂_set {α β : Type} {R : α → β → Prop} {as : List α} {bs : List β}
    (h : List.Forall₂ R as bs) (n : Nat) {a : α} {b : β} (hab : R a b) :
    List.Forall₂ R (as.set n a) (bs.set n b) := by
  induction h generalizing n with
  | nil => exact .nil
  | cons hhead htail ih =>
    cases n with
    | zero => exact .cons hab htail
    | succ n => exact .cons hhead (ih n)

theorem nctx_eq_of_sameOutside {s t : State} (h : s.SameOutside t) : s.nctx = t.nctx := by
  obtain ⟨hctxs, -⟩ := h
  exact hctxs.length_eq

theorem ctx?_cases_of_sameOutside {s t : State} (h : s.SameOutside t) (c : CtxIx) :
    (s.ctx? c = none ∧ t.ctx? c = none) ∨
      ∃ x y, s.ctx? c = some x ∧ t.ctx? c = some y ∧ x.SameOutside y := by
  have hnctx := nctx_eq_of_sameOutside h
  obtain ⟨hctxs, -⟩ := h
  by_cases hs : c.val < s.nctx
  · have ht : c.val < t.nctx := hnctx ▸ hs
    exact .inr ⟨_, _, List.getElem?_eq_getElem hs, List.getElem?_eq_getElem ht, hctxs.get hs ht⟩
  · have ht : ¬ c.val < t.nctx := hnctx ▸ hs
    exact .inl ⟨List.getElem?_eq_none (not_lt.mp hs), List.getElem?_eq_none (not_lt.mp ht)⟩

theorem respond_sameOutside {s t : State} (h : s.SameOutside t) (code : Code) (out : List Byte) :
    (s.respond code out).SameOutside (t.respond code out) := by
  obtain ⟨hctxs, hinputs, hresponses⟩ := h
  exact ⟨hctxs, hinputs, by rw [respond_responses, respond_responses, hresponses]⟩

theorem setCtx_setKernel_sameOutside {s t : State} (h : s.SameOutside t) (c : CtxIx)
    {x y : Context} (hxy : x.SameOutside y) (k l : Kernel) :
    ((s.setCtx c x).setKernel k).SameOutside ((t.setCtx c y).setKernel l) := by
  obtain ⟨hctxs, hinputs, hresponses⟩ := h
  exact ⟨forall₂_set hctxs c.val hxy, hinputs, hresponses⟩

theorem succeeded_sameOutside {i : Instr} {s t : State} {x y : Context} (h : s.SameOutside t)
    (hxy : x.SameOutside y) (he : commandError i x = none) :
    (succeeded i s x).SameOutside (succeeded i t y) := by
  obtain ⟨hctx, hout⟩ := commandEffect_sameOutside hxy he s.kernel t.kernel
  rw [succeeded, hout]
  exact respond_sameOutside (setCtx_setKernel_sameOutside h i.target hctx _ _) .ok _

theorem hardReset_sameOutside {s t : State} (h : s.SameOutside t) :
    s.hardReset.SameOutside t.hardReset := by
  have hnctx := nctx_eq_of_sameOutside h
  obtain ⟨-, hinputs, hresponses⟩ := h
  refine ⟨?_, hinputs, hresponses⟩
  rw [hardReset_ctxs, hardReset_ctxs, hnctx, List.forall₂_same]
  exact fun x _ => context_sameOutside_refl x

theorem exec_sameOutside {s t : State} (h : s.SameOutside t) (i : Instr) :
    ∃ s' t', exec i s = .next s' ∧ exec i t = .next t' ∧ s'.SameOutside t' := by
  have missing := respond_sameOutside h .illegalCommand []
  obtain ⟨hs, ht⟩ | ⟨x, y, hx, hy, hxy⟩ := ctx?_cases_of_sameOutside h i.ctx
  · exact ⟨_, _, exec_of_missing (.inl hs), exec_of_missing (.inl ht), missing⟩
  obtain ⟨hs, ht⟩ | ⟨x', y', hx', hy', -⟩ := ctx?_cases_of_sameOutside h i.target
  · exact ⟨_, _, exec_of_missing (.inr hs), exec_of_missing (.inr ht), missing⟩
  have herror := commandError_eq_of_sameOutside hxy i
  cases he : commandError i x with
  | some e =>
    exact ⟨_, _, exec_of_error hx hx' he, exec_of_error hy hy' (herror ▸ he),
      respond_sameOutside h e []⟩
  | none =>
    exact ⟨_, _, exec_of_success hx hx' he, exec_of_success hy hy' (herror ▸ he),
      succeeded_sameOutside h hxy he⟩

theorem runRequest_sameOutside {s t : State} (h : s.SameOutside t) (r : Request) :
    ∃ s' t', runRequest r s = .next s' ∧ runRequest r t = .next t' ∧ s'.SameOutside t' := by
  unfold runRequest
  rw [← nctx_eq_of_sameOutside h]
  cases decode s.nctx r with
  | illegal why => exact ⟨_, _, rfl, rfl, respond_sameOutside h .illegalCommand []⟩
  | cmd i => exact exec_sameOutside h i

/-- R38 for one step: both refuse a malformed request, or both answer and stay alike. -/
theorem step_sameOutside {s t : State} (h : s.SameOutside t) :
    (step s = .refused .malformedRequest ∧ step t = .refused .malformedRequest) ∨
      ∃ s' t', step s = .next s' ∧ step t = .next t' ∧ s'.SameOutside t' := by
  obtain ⟨hctxs, hinputs, hresponses⟩ := h
  have taken (rest : List Input) : State.SameOutside { s with inputs := rest }
      { t with inputs := rest } := ⟨hctxs, rfl, hresponses⟩
  unfold step
  rw [← hinputs]
  cases hin : s.inputs with
  | nil => exact .inr ⟨s, t, rfl, rfl, hctxs, hinputs, hresponses⟩
  | cons input rest =>
    cases input with
    | reset cut => exact .inr ⟨_, _, rfl, rfl, hardReset_sameOutside (taken rest)⟩
    | request r =>
      cases hwf : r.wellFormed with
      | false => exact .inl (by simp [hwf])
      | true =>
        simp only [hwf, if_true]
        exact .inr (runRequest_sameOutside (taken rest) r)

theorem run_succ_of_refused {s : State} {why : Refusal} (h : step s = .refused why) (k : Nat) :
    Host.Core.run core (k + 1) s = .refused why := by
  have hs : core.step s = .refused why := h
  simp only [Host.Core.run, hs]

/-- Settles O34, by induction on the length of the run. -/
theorem hiddenStateNeverShows : Obligations.HiddenStateNeverShows := by
  intro k
  induction k with
  | zero =>
    intro s t h
    refine ⟨fun s' hrun => ⟨t, rfl, ?_⟩, ⟨nofun, nofun⟩⟩
    cases hrun
    exact h
  | succ k ih =>
    intro s t h
    obtain ⟨hs, ht⟩ | ⟨s', t', hs, ht, h'⟩ := step_sameOutside h
    · rw [run_succ_of_refused hs, run_succ_of_refused ht]
      exact ⟨nofun, Iff.rfl⟩
    · rw [run_succ_of_step hs, run_succ_of_step ht]
      exact ih s' t' h'

end Sys2Proof.Proofs
end

section
/-! SUPPORT. What a command reads and writes: the bytes UPDATE stores (O17), a command as a change computed from the one context CTX names (O32, O33), and the answers of a run (O35). -/

namespace Sys2Proof.Proofs

open Sys2Proof.Machine

/-! ## The bytes UPDATE stores (spec/20_memory.md R51, spec/42_engine_commands.md R172) -/

theorem life_eq_active_iff {x : Context} : x.life = .active ↔ x.des = false ∧ x.fin = false := by
  cases hdes : x.des <;> cases hfin : x.fin <;> simp [Context.life, hdes, hfin]

/-- R51: absorbing leaves an offset that no payload byte goes to. -/
theorem read_absorb_of_missed (s : Work) {d : List Byte} {k : Fin 64}
    (missed : ∀ j, j < d.length → (s.1.pos.val + j) % 64 ≠ k.val) :
    (absorb s d).1.buf.read k = s.1.buf.read k := by
  induction d generalizing s with
  | nil => rfl
  | cons v d ih =>
    have first : k ≠ s.1.pos := by
      rintro rfl
      exact missed 0 (by simp) (Nat.mod_eq_of_lt s.1.pos.isLt)
    have later : ∀ j, j < d.length → ((absorbByte s v).1.pos.val + j) % 64 ≠ k.val := by
      intro j hj
      have := missed (j + 1) (by simpa using hj)
      rw [absorbByte_pos]
      omega
    rw [absorb_cons, ih _ later, absorbByte_buf, read_byteStore, if_neg first]

/-- R172: a payload byte stays at its offset when fewer than 64 bytes follow it. -/
theorem read_absorb_of_last (s : Work) {d : List Byte} {k : Fin 64} {j : Nat} (hj : j < d.length)
    (at_k : (s.1.pos.val + j) % 64 = k.val) (last : d.length ≤ j + 64) :
    (absorb s d).1.buf.read k = d[j] := by
  induction d generalizing s j with
  | nil => cases hj
  | cons v d ih =>
    have hlen : d.length + 1 ≤ j + 64 := last
    rw [absorb_cons]
    cases j with
    | zero =>
      have stored : k = s.1.pos := Fin.ext (by omega)
      have missed : ∀ j, j < d.length → ((absorbByte s v).1.pos.val + j) % 64 ≠ k.val := by
        intro j hj
        rw [absorbByte_pos]
        omega
      rw [read_absorb_of_missed _ missed, absorbByte_buf, read_byteStore, if_pos stored]
      rfl
    | succ j =>
      have at_k' : ((absorbByte s v).1.pos.val + j) % 64 = k.val := by
        rw [absorbByte_pos]
        omega
      exact ih _ (Nat.lt_of_succ_lt_succ hj) at_k' (by omega)

theorem succeeded_onlyTouches (i : Instr) (s : State) (x : Context) :
    s.OnlyTouches (succeeded i s x) i.target :=
  ⟨rfl, succeeded_nctx i s x, succeeded_ctx?_ne i s x⟩

/-- Settles O17: an UPDATE that meets an error writes no context, and one that succeeds absorbs the payload byte by byte. -/
theorem updateStoresOnlyThePayload : Obligations.UpdateStoresOnlyThePayload := by
  intro s t c x ityp data hx hexec
  have active_iff : commandError (.update c ityp data) x = none ↔ x.life = .active ∧ ityp = 0 := by
    rw [commandError_update_eq_none, life_eq_active_iff, and_assoc]
    rfl
  cases he : commandError (.update c ityp data) x with
  | some e =>
    rw [exec_of_error hx hx he] at hexec
    cases hexec
    refine ⟨x, hx, rfl, rfl, ⟨rfl, rfl, fun _ _ => rfl⟩, fun active zero => ?_, fun _ => ⟨rfl, rfl⟩⟩
    rw [active_iff.mpr ⟨active, zero⟩] at he
    cases he
  | none =>
    obtain ⟨active, zero⟩ := active_iff.mp he
    rw [exec_of_success hx hx he] at hexec
    cases hexec
    refine ⟨_, succeeded_ctx?_target (.update c ityp data) s x hx, updateWork_fin _ data,
      updateWork_des _ data, succeeded_onlyTouches _ s x, fun _ _ => ?_, fun failed => ?_⟩
    · simp only [commandEffect, updateWork_buf]
      exact ⟨fun _ => read_absorb_of_missed (x, s.kernel), fun _ _ => read_absorb_of_last (x, s.kernel)⟩
    · exact absurd failed (by simp [active, zero])

/-! ## The scratch is never read (spec/41_compression_kernel.md R149, R152) -/

/-- R152: PROCESS builds the schedule and the registers anew. -/
theorem process_context_congr {s t : Work} (h : s.1 = t.1) : (process s).1 = (process t).1 := by
  simp only [process, compress_regs, h]

theorem absorbByte_context_congr {s t : Work} (h : s.1 = t.1) (v : Byte) :
    (absorbByte s v).1 = (absorbByte t v).1 := by
  unfold absorbByte
  rw [h]
  split
  · exact congrArg (Context.setPos · 0) (process_context_congr rfl)
  · rfl

theorem absorb_context_congr {s t : Work} (h : s.1 = t.1) (d : List Byte) :
    (absorb s d).1 = (absorb t d).1 := by
  induction d generalizing s t with
  | nil => exact h
  | cons v d ih => exact ih (absorbByte_context_congr h v)

theorem extraBlock_context_congr {s t : Work} (h : s.1 = t.1) (pos : Fin 64) :
    (extraBlock s pos).1 = (extraBlock t pos).1 := by
  unfold extraBlock
  split
  · exact congrArg (Context.setBuf · Memory.zeroed) (process_context_congr h)
  · exact h

theorem finalize_context_congr {s t : Work} (h : s.1 = t.1) : (finalize s).1 = (finalize t).1 := by
  have padded_congr : padded s.1 = padded t.1 := congrArg padded h
  have block_congr := extraBlock_context_congr (s := (padded s.1, s.2)) (t := (padded t.1, t.2))
    padded_congr s.1.pos
  unfold finalize
  refine congrArg Context.markFinished (process_context_congr ?_)
  dsimp only
  rw [block_congr, h]

/-- R70: what a command writes and answers does not depend on the scratch. -/
theorem commandEffect_congr (i : Instr) (x : Context) (k l : Kernel) :
    (commandEffect i (x, k)).1 = (commandEffect i (x, l)).1 ∧
      (commandEffect i (x, k)).2.2 = (commandEffect i (x, l)).2.2 := by
  have finalized : (finalize (x, k)).1 = (finalize (x, l)).1 := finalize_context_congr rfl
  cases i with
  | update c t d =>
    have absorbed : (absorb (x, k) d).1 = (absorb (x, l) d).1 :=
      absorb_context_congr (s := (x, k)) (t := (x, l)) rfl d
    simp [commandEffect, updateWork, absorbed]
  | digestInto c n => simp [commandEffect, finalized]
  | digest c => simp [commandEffect, finalized]
  | _ => exact ⟨rfl, rfl⟩

/-! ## What a command does to the scratch (R149) -/

/-- The commands that run PROCESS when they succeed on `x`, and so leave the scratch zero. -/
def clearsScratch : Instr → Context → Bool
  | .update _ _ d, x              => decide (64 ≤ x.pos.val + d.length)
  | .digestInto .., _ | .digest _, _ => true
  | .create _, _ | .clone .., _ | .destroy _, _ => false

/-- R172: absorbing runs PROCESS exactly when the payload fills the buffer. -/
theorem absorb_kernel (s : Work) (d : List Byte) :
    (absorb s d).2 = if 64 ≤ s.1.pos.val + d.length then Kernel.zero else s.2 := by
  induction d generalizing s with
  | nil => rw [absorb_nil, if_neg (by simp)]
  | cons v d ih =>
    rw [absorb_cons, ih, absorbByte_pos, absorbByte_kernel, List.length_cons]
    by_cases full : s.1.pos.val = 63
    · rw [if_pos full, ite_self, if_pos (by omega)]
    · rw [if_neg full, Nat.mod_eq_of_lt (by omega), Nat.add_right_comm, Nat.add_assoc]

theorem commandEffect_kernel (i : Instr) (x : Context) (k : Kernel) :
    (commandEffect i (x, k)).2.1 = if clearsScratch i x then Kernel.zero else k := by
  cases i with
  | update c t d => simp [commandEffect, clearsScratch, absorb_kernel]
  | _ => rfl

/-! ## A command as a change of one context (spec/20_memory.md R70) -/

/-- What a command changes: the context it writes (none if it fails), whether it clears the scratch, and its answer. -/
structure Change where
  written : Option Context
  clears  : Bool
  answer  : Response

/-- 60_exceptions.md R214: the change of a command that fails. -/
def Change.error (e : Code) : Change := { written := none, clears := false, answer := ⟨e, []⟩ }

/-- The change made to context `c`, the scratch and the answers. -/
def Change.apply (e : Change) (c : CtxIx) (s : State) : State :=
  { s with
    ctxs := e.written.elim s.ctxs (s.ctxs.set c.val)
    kernel := if e.clears then Kernel.zero else s.kernel
    responses := s.responses ++ [e.answer] }

/-- The change of a command that meets no error on `x`. -/
def Change.success (i : Instr) (x : Context) : Change :=
  let e := commandEffect i (x, Kernel.zero)
  { written := some e.1, clears := clearsScratch i x, answer := ⟨.ok, e.2.2⟩ }

/-- A command's change, from the context CTX names and whether its target exists. -/
def commandChange (i : Instr) : Option Context → Bool → Change
  | some x, true =>
    match commandError i x with
    | some e => .error e
    | none => .success i x
  | _, _ => .error .illegalCommand

/-- The change command `i` makes in state `s`. -/
def changeIn (s : State) (i : Instr) : Change :=
  commandChange i (s.ctx? i.ctx) (s.ctx? i.target).isSome

theorem changeIn_of_error {i : Instr} {s : State} {x z : Context} {e : Code}
    (hx : s.ctx? i.ctx = some x) (hz : s.ctx? i.target = some z) (he : commandError i x = some e) :
    changeIn s i = .error e := by
  simp [changeIn, hx, hz, commandChange, he]

theorem changeIn_of_success {i : Instr} {s : State} {x z : Context}
    (hx : s.ctx? i.ctx = some x) (hz : s.ctx? i.target = some z) (he : commandError i x = none) :
    changeIn s i = .success i x := by
  simp [changeIn, hx, hz, commandChange, he]

theorem changeIn_of_missing {i : Instr} {s : State}
    (h : s.ctx? i.ctx = none ∨ s.ctx? i.target = none) :
    changeIn s i = .error .illegalCommand := by
  obtain h | h := h <;> simp [changeIn, h, commandChange]

theorem respond_eq_apply (s : State) (c : CtxIx) (e : Code) :
    s.respond e [] = (Change.error e).apply c s := rfl

theorem succeeded_eq_apply (i : Instr) (s : State) (x : Context) :
    succeeded i s x = (Change.success i x).apply i.target s := by
  obtain ⟨hctx, hout⟩ := commandEffect_congr i x s.kernel Kernel.zero
  simp only [succeeded, hctx, hout, commandEffect_kernel]
  rfl

/-- R70: `exec` is the command's change made to its target. -/
theorem exec_eq_apply (i : Instr) (s : State) :
    exec i s = .next ((changeIn s i).apply i.target s) := by
  by_cases missing : s.ctx? i.ctx = none ∨ s.ctx? i.target = none
  · rw [exec_of_missing missing, changeIn_of_missing missing, respond_eq_apply s i.target]
  · obtain ⟨⟨x, hx⟩, ⟨z, hz⟩⟩ : (∃ x, s.ctx? i.ctx = some x) ∧ ∃ z, s.ctx? i.target = some z := by
      simpa [not_or, Option.ne_none_iff_exists'] using missing
    cases he : commandError i x with
    | some e =>
      rw [exec_of_error hx hz he, changeIn_of_error hx hz he, respond_eq_apply s i.target]
    | none => rw [exec_of_success hx hz he, changeIn_of_success hx hz he, succeeded_eq_apply]

section
variable (e : Change) (c : CtxIx) (s : State)

@[simp] theorem apply_nctx : (e.apply c s).nctx = s.nctx := by
  cases h : e.written <;> simp [Change.apply, State.nctx, h]

@[simp] theorem apply_responses : (e.apply c s).responses = s.responses ++ [e.answer] := rfl

/-- R70: no other context changes. -/
theorem apply_ctx?_ne {d : CtxIx} (h : d ≠ c) : (e.apply c s).ctx? d = s.ctx? d := by
  cases hw : e.written with
  | none => simp [Change.apply, State.ctx?, hw]
  | some x =>
    have hne : c.val ≠ d.val := fun heq => h (Fin.ext heq.symm)
    simp [Change.apply, State.ctx?, hw, List.getElem?_set_ne hne]

theorem apply_ctx?_self (h : c.val < s.nctx) :
    (e.apply c s).ctx? c = e.written.elim (s.ctx? c) some := by
  have hlt : c.val < s.ctxs.length := h
  cases hw : e.written <;> simp [Change.apply, State.ctx?, hw, hlt]

end

/-- R243 H-8: changes of two contexts commute. -/
theorem apply_comm {c d : CtxIx} (h : c ≠ d) (a b : Change) (s : State) :
    (b.apply d (a.apply c s)).ctxs = (a.apply c (b.apply d s)).ctxs ∧
      (b.apply d (a.apply c s)).kernel = (a.apply c (b.apply d s)).kernel := by
  have hne : c.val ≠ d.val := fun heq => h (Fin.ext heq)
  constructor
  · cases ha : a.written <;> cases hb : b.written <;>
      simp [Change.apply, ha, hb, List.set_comm _ _ hne]
  · cases ha : a.clears <;> cases hb : b.clears <;> simp [Change.apply, ha, hb]

theorem changeIn_congr {s s' : State} {i : Instr} (hctx : s.ctx? i.ctx = s'.ctx? i.ctx)
    (hnctx : s.nctx = s'.nctx) : changeIn s i = changeIn s' i := by
  simp only [changeIn, hctx, ctx?_isSome, hnctx]

theorem ctx_mem_named (i : Instr) : i.ctx ∈ i.named := by
  cases i <;> simp [Instr.ctx, Instr.named]

theorem target_mem_named (i : Instr) : i.target ∈ i.named := by
  cases i <;> simp [Instr.target, Instr.named]

/-- Only commands that write the context they read can meet an error. -/
theorem target_eq_ctx_of_error {i : Instr} {x : Context} {e : Code}
    (h : commandError i x = some e) : i.target = i.ctx := by
  cases i with
  | clone a b => cases h
  | _ => rfl

/-- A command on existing contexts writes its target, or its target is the context it reads. -/
theorem written_or_target_eq_ctx {s : State} {i : Instr} (h : ∀ c ∈ i.named, c.val < s.nctx) :
    (∃ y, (changeIn s i).written = some y) ∨ i.target = i.ctx := by
  obtain ⟨x, hx⟩ := exists_ctx_of_lt (h _ (ctx_mem_named i))
  obtain ⟨z, hz⟩ := exists_ctx_of_lt (h _ (target_mem_named i))
  cases he : commandError i x with
  | some e => exact .inr (target_eq_ctx_of_error he)
  | none => exact .inl ⟨_, by rw [changeIn_of_success hx hz he]; rfl⟩

/-- Settles O32: the command makes the same change in both states, to its target alone. -/
theorem commandReadsOneContextAndWritesOne : Obligations.CommandReadsOneContextAndWritesOne := by
  intro i s s' t t' ht ht' hnctx hnamed hctx
  rw [exec_eq_apply] at ht ht'
  cases ht
  cases ht'
  have change_eq := changeIn_congr hctx hnctx
  have hlt := hnamed _ (target_mem_named i)
  refine ⟨?_, ⟨(changeIn s i).answer, rfl, by rw [change_eq]; rfl⟩, fun c => apply_ctx?_ne _ _ _⟩
  rw [← change_eq, apply_ctx?_self _ _ _ hlt, apply_ctx?_self _ _ _ (hnctx ▸ hlt)]
  obtain ⟨y, hy⟩ | same := written_or_target_eq_ctx hnamed
  · rw [hy]
    rfl
  · rw [same, hctx]

/-- A change of a context that a command does not name leaves the command's own change as it is. -/
theorem changeIn_apply {i : Instr} {d : CtxIx} (h : i.ctx ≠ d) (e : Change) (s : State) :
    changeIn (e.apply d s) i = changeIn s i :=
  changeIn_congr (apply_ctx?_ne e d s h) (apply_nctx e d s)

/-- Settles O33: neither command's change depends on the other's, and the two changes commute. -/
theorem commandsOnDifferentContextsCommute : Obligations.CommandsOnDifferentContextsCommute := by
  intro i j s t u t' u' disjoint ht hu ht' hu'
  have apart {c d : CtxIx} (hc : c ∈ i.named) (hd : d ∈ j.named) : c ≠ d :=
    fun heq => disjoint c hc (heq ▸ hd)
  rw [exec_eq_apply] at ht ht'
  cases ht
  cases ht'
  rw [exec_eq_apply, changeIn_apply (apart (target_mem_named i) (ctx_mem_named j)).symm] at hu
  rw [exec_eq_apply, changeIn_apply (apart (ctx_mem_named i) (target_mem_named j))] at hu'
  cases hu
  cases hu'
  obtain ⟨ctxs_eq, kernel_eq⟩ :=
    apply_comm (apart (target_mem_named i) (target_mem_named j)) (changeIn s i) (changeIn s j) s
  exact ⟨ctxs_eq, kernel_eq, (changeIn s i).answer, (changeIn s j).answer, by simp, by simp⟩

/-! ## A run over well-formed requests (spec/20_memory.md R65, spec/70_reset_and_hazards.md R247) -/

/-- R95, R246: a well-formed request at the port has a step. -/
theorem exists_step_of_wellFormed {s : State} {r : Request} {rest : List Input}
    (hin : s.inputs = .request r :: rest) (hwf : r.wellFormed = true) : ∃ t, step s = .next t := by
  have taken : step s = runRequest r { s with inputs := rest } := by
    simp only [step, hin, hwf, if_true]
  rw [taken, runRequest]
  split
  · exact ⟨_, rfl⟩
  · next i _ => exact ⟨_, exec_eq_apply i _⟩

/-- Settles O35, by induction on the requests: each has a step, which takes it and answers once. -/
theorem runAnswersEveryRequest : Obligations.RunAnswersEveryRequest := by
  intro rs
  induction rs with
  | nil => exact fun s hin _ => ⟨s, [], rfl, hin, by simp, rfl, rfl⟩
  | cons r rs ih =>
    intro s hin hwf
    obtain ⟨u, hstep⟩ := exists_step_of_wellFormed hin (hwf r (by simp))
    obtain ⟨a, hresp_u, hinputs, hnctx_u, -⟩ := everyRequestGetsOneAnswer s u r _ hin hstep
    obtain ⟨t, answers, hrun, hempty, hresp, hlength, hnctx⟩ :=
      ih u hinputs fun q hq => hwf q (by simp [hq])
    refine ⟨t, a :: answers, ?_, hempty, ?_, by simp [hlength], hnctx.trans hnctx_u⟩
    · rw [List.length_cons, run_succ_of_step hstep, hrun]
    · simp [hresp, hresp_u]

end Sys2Proof.Proofs
end

section
/-! SUPPORT. The encoding: a word is its fields (O3), framing (O4), the illegal words (O6, O7), what decoding to a command says of the request (O8), and the round trips (O9, O10). -/

namespace Sys2Proof.Proofs

open Sys2Proof.Machine

/-! ## A word and its fields (spec/30_encoding.md R80) -/

/-- Settles O3: the fields read back from the built word are its digits in the bases R80 gives. -/
theorem fieldsStandAtTheirBits : Obligations.FieldsStandAtTheirBits := by
  intro imm ityp dst ctx op
  have hop := opField_toNat (commandWord imm ityp dst ctx op)
  have hctx := ctxField_val (commandWord imm ityp dst ctx op)
  have hdst := dstField_val (commandWord imm ityp dst ctx op)
  have hityp := itypField_toNat (commandWord imm ityp dst ctx op)
  have hrsv := rsvField_toNat (commandWord imm ityp dst ctx op)
  have himm := immField_toNat (commandWord imm ityp dst ctx op)
  simp only [opField_commandWord, ctxField_commandWord, dstField_commandWord, itypField_commandWord,
    rsvField_commandWord, immField_commandWord, BitVec.toNat_ofNat] at hop hctx hdst hityp hrsv himm
  omega

/-- R80, R86: a word with RSV zero is the word built from its own fields. -/
theorem commandWord_fields {w : Word} (hrsv : rsvField w = 0#2) :
    commandWord (immField w) (itypField w) (dstField w) (ctxField w) (opField w) = w := by
  have rsv_number : w.toNat / 16384 % 4 = 0 := by rw [← rsvField_toNat, hrsv]; rfl
  apply BitVec.eq_of_toNat_eq
  rw [fieldsStandAtTheirBits, immField_toNat, itypField_toNat, dstField_val, ctxField_val,
    opField_toNat]
  omega

@[simp] theorem dstZero_iff (w : Word) : dstZero w = true ↔ dstField w = 0 := by
  simp [dstZero]

@[simp] theorem itypZero_iff (w : Word) : itypZero w = true ↔ itypField w = 0#2 := decide_eq_true_iff

@[simp] theorem immZero_iff (w : Word) : immZero w = true ↔ immField w = 0#16 := decide_eq_true_iff

@[simp] theorem inRange_iff (nctx : Nat) (c : CtxIx) :
    CtxIx.inRange nctx c = true ↔ c.val < nctx := decide_eq_true_iff

/-! ## Framing (spec/30_encoding.md R93, R95) -/

theorem payloadLen_eq (w : Word) :
    payloadLen w = if w.toNat % 16 = 2 then w.toNat / 65536 else 0 := by
  have op_iff : opField w = 0x2#4 ↔ w.toNat % 16 = 2 := by
    rw [← opField_toNat, BitVec.toNat_eq]; rfl
  simp only [payloadLen, op_iff, immField_toNat]

theorem payload_length_of_wellFormed {r : Request} (h : r.wellFormed = true) :
    r.payload.length = payloadLen r.word := of_decide_eq_true h

/-- R85: no word announces more than `MAX_CHUNK` bytes. -/
theorem payloadLen_le (w : Word) : payloadLen w ≤ 65535 := by
  have := (immField w).isLt
  unfold payloadLen
  split <;> omega

theorem step_of_wellFormed {s : State} {r : Request} {rest : List Input}
    (hin : s.inputs = .request r :: rest) (hwf : r.wellFormed = true) :
    step s = runRequest r { s with inputs := rest } := by
  simp only [step, hin, hwf, if_true]

/-- Settles O4: a well-formed request has a step, any other is refused. -/
theorem malformedRequestHasNoStep : Obligations.MalformedRequestHasNoStep := by
  intro s r rest hin
  rw [← payloadLen_eq]
  constructor
  · intro refused hlength
    obtain ⟨t, hstep⟩ := exists_step_of_wellFormed hin (decide_eq_true hlength)
    rw [refused] at hstep
    cases hstep
  · intro hlength
    have malformed : r.wellFormed = false := decide_eq_false hlength
    simp [step, hin, malformed]

/-! ## The illegal words (spec/30_encoding.md R91) -/

/-- A row of R90's case is illegal exactly if one of its must-be-zero fields is not zero. -/
theorem exists_whenZero_eq_illegal {zero : Bool} {i : Instr} :
    (∃ why, whenZero zero i = .illegal why) ↔ ¬ zero = true := by
  cases zero <;> simp [whenZero]

/-- R91's list without RSV and CTX, which R90 tests before the opcode. -/
theorem decodeOp_illegal_iff (nctx : Nat) (r : Request) :
    (∃ why, decodeOp nctx r = .illegal why) ↔
      ((opField r.word).toNat = 0 ∨ 7 ≤ (opField r.word).toNat ∨
        ((opField r.word).toNat ≠ 5 ∧ dstField r.word ≠ 0) ∨
        ((opField r.word).toNat ≠ 2 ∧ itypField r.word ≠ 0#2) ∨
        ((opField r.word).toNat ≠ 2 ∧ (opField r.word).toNat ≠ 3 ∧ immField r.word ≠ 0#16) ∨
        ((opField r.word).toNat = 5 ∧ nctx ≤ (dstField r.word).val)) := by
  unfold decodeOp
  dsimp only
  split
  case h_5 op =>
    split
    next range =>
      have below : ¬ nctx ≤ (dstField r.word).val := by simpa using range
      simp [op, below, exists_whenZero_eq_illegal, imp_iff_not_or]
    next range =>
      have above : nctx ≤ (dstField r.word).val := by simpa using range
      simp [op, above]
  case h_7 =>
    have unused : (opField r.word).toNat = 0 ∨ 7 ≤ (opField r.word).toNat := by grind
    simp [← or_assoc, unused]
  all_goals
    next op =>
      simp [op, exists_whenZero_eq_illegal, imp_iff_not_or, or_assoc]

/-- R90: `decode` is its tests of RSV and of CTX, then the case of the opcode. -/
theorem decode_illegal_iff (nctx : Nat) (r : Request) :
    (∃ why, decode nctx r = .illegal why) ↔ rsvField r.word ≠ 0#2 ∨
      nctx ≤ (ctxField r.word).val ∨ ∃ why, decodeOp nctx r = .illegal why := by
  unfold decode
  split
  next hrsv => exact iff_of_true ⟨_, rfl⟩ (.inl hrsv)
  next hrsv =>
    split
    next range => exact iff_of_true ⟨_, rfl⟩ (.inr (.inl (by simpa [CtxIx.inRange] using range)))
    next range =>
      have below : ¬ nctx ≤ (ctxField r.word).val := by simpa using range
      rw [or_iff_right hrsv, or_iff_right below]

/-- Settles O6: R91's list is R90's two first tests and the opcode's list, read from the word's number. -/
theorem illegalWordsAreTheListedOnes : Obligations.IllegalWordsAreTheListedOnes := by
  intro nctx r
  have dst_iff : dstField r.word ≠ 0 ↔ (dstField r.word).val ≠ 0 := Fin.val_ne_zero_iff.symm
  rw [decode_illegal_iff, decodeOp_illegal_iff]
  simp only [Reference.illegalWord, ← opField_toNat, ← ctxField_val, ← dstField_val,
    ← itypField_toNat, ← rsvField_toNat, ← immField_toNat, dst_iff, ne_eq, BitVec.toNat_eq,
    BitVec.toNat_ofNat]
  omega

/-- Settles O7: an illegal word takes `runRequest`'s error arm. -/
theorem illegalWordChangesNothing : Obligations.IllegalWordChangesNothing := by
  intro s r rest hin hwf
  have listed := illegalWordsAreTheListedOnes s.nctx r
  refine ⟨listed, fun illegal => ?_⟩
  obtain ⟨why, hwhy⟩ := listed.mpr illegal
  rw [step_of_wellFormed hin hwf, runRequest, withInputs_nctx, hwhy]
  rfl

/-! ## What decoding to a command says of the request (spec/30_encoding.md R87 to R90) -/

/-- The request has the word of the command's row, LEN left free for UPDATE (framing is checked apart, R95), and UPDATE's data are its payload. -/
def Carries (r : Request) : Instr → Prop
  | .update c t d => (∃ n, r.word = commandWord n t 0 c 0x2) ∧ r.payload = d
  | i => r.word = (encode i).word

/-- R90's tests all pass on the word of a command's row, if the contexts it names exist. -/
theorem decode_of_carries {nctx : Nat} {r : Request} {i : Instr} (hcarries : Carries r i)
    (hnamed : ∀ c ∈ i.named, c.val < nctx) : decode nctx r = .cmd i := by
  have hctx := hnamed _ (ctx_mem_named i)
  have htarget := hnamed _ (target_mem_named i)
  cases i with
  | update c t d =>
    obtain ⟨⟨n, hword⟩, rfl⟩ := hcarries
    rw [Instr.ctx] at hctx
    simp [decode, decodeOp, hword, whenZero, hctx]
  | _ =>
    have hword : r.word = _ := hcarries
    rw [Instr.ctx] at hctx
    rw [Instr.target] at htarget
    simp [decode, decodeOp, hword, encode, whenZero, hctx, htarget]

/-- R90: the opcode's row gives the command its fields, and CLONE's DST is in range. -/
theorem carries_of_decodeOp {nctx : Nat} {r : Request} {i : Instr} (hrsv : rsvField r.word = 0#2)
    (hctx : (ctxField r.word).val < nctx) (h : decodeOp nctx r = .cmd i) :
    (∀ c ∈ i.named, c.val < nctx) ∧ Carries r i := by
  have fields := commandWord_fields hrsv
  have row {n : Nat} (op : (opField r.word).toNat = n) : opField r.word = BitVec.ofNat 4 n := by
    rw [← op, BitVec.ofNat_toNat, BitVec.setWidth_eq]
  unfold decodeOp at h
  dsimp only at h
  split at h
  case h_2 op =>
    obtain ⟨zero, rfl⟩ := whenZero_eq_cmd.mp h
    rw [dstZero_iff] at zero
    rw [row op, zero] at fields
    exact ⟨by simpa [Instr.named] using hctx, ⟨_, fields.symm⟩, rfl⟩
  case h_5 op =>
    split at h
    · next range =>
      obtain ⟨zero, rfl⟩ := whenZero_eq_cmd.mp h
      rw [Bool.and_eq_true_iff, itypZero_iff, immZero_iff] at zero
      obtain ⟨hityp, himm⟩ := zero
      rw [row op, hityp, himm] at fields
      exact ⟨by simpa [Instr.named] using ⟨hctx, (inRange_iff _ _).mp range⟩, fields.symm⟩
    · cases h
  case h_7 => cases h
  all_goals
    next op =>
      obtain ⟨zero, rfl⟩ := whenZero_eq_cmd.mp h
      simp only [Bool.and_eq_true_iff, dstZero_iff, itypZero_iff, immZero_iff] at zero
      simp only [row op, zero] at fields
      exact ⟨by simpa [Instr.named] using hctx, fields.symm⟩

/-- R87 to R90: what a request decodes to, on a block of any number of contexts. -/
theorem decode_eq_cmd_iff {nctx : Nat} {r : Request} {i : Instr} :
    decode nctx r = .cmd i ↔ (∀ c ∈ i.named, c.val < nctx) ∧ Carries r i := by
  refine ⟨fun h => ?_, fun ⟨hnamed, hcarries⟩ => decode_of_carries hcarries hnamed⟩
  unfold decode at h
  split at h
  · cases h
  next hrsv =>
    split at h
    · cases h
    next range =>
      exact carries_of_decodeOp (not_not.mp hrsv) (by simpa using range) h

/-- Settles O8: NCTX is on R91's list as a bound of CTX and DST, and nowhere in what a request carries. -/
theorem contextRangeIsByValue : Obligations.ContextRangeIsByValue := by
  refine ⟨fun nctx r outside => ?_, fun nctx r i h => ?_⟩
  · rw [illegalWordsAreTheListedOnes]
    unfold Reference.illegalWord
    tauto
  · rw [decode_eq_cmd_iff, and_iff_left (decode_eq_cmd_iff.mp h).2]

/-! ## The round trips (spec/30_encoding.md R80 to R95) -/

/-- Settles O9: the encoder frames its request and its word has the row's fields. -/
theorem decodeOfEncode : Obligations.DecodeOfEncode :=
  fun _ _ h => ⟨wellFormed_encode h, decode_encode h⟩

/-- R85, R89: a command has an encoding if its contexts exist and its payload fits. -/
theorem instr_wellFormed_iff {nctx : Nat} {i : Instr} : i.wellFormed nctx = true ↔
    (∀ c ∈ i.named, c.val < nctx) ∧ (encode i).payload.length ≤ 65535 := by
  cases i <;> simp [Instr.wellFormed, Instr.named, encode, payloadFits]

/-- R95: framing leaves no freedom, neither in LEN nor in a payload that is not UPDATE's. -/
theorem encode_eq_of_carries {r : Request} {i : Instr} (hwf : r.wellFormed = true)
    (h : Carries r i) : encode i = r := by
  have hlength := payload_length_of_wellFormed hwf
  obtain ⟨word, payload⟩ := r
  cases i with
  | update c t d =>
    obtain ⟨⟨n, rfl⟩, rfl⟩ := h
    have len : payload.length = n.toNat := by simpa [payloadLen] using hlength
    simp [encode, len]
  | _ =>
    obtain rfl : word = _ := h
    have empty : payload = [] := by simpa [payloadLen, encode] using hlength
    rw [empty]
    rfl

/-- Settles O10: a request carries the command it decodes to, and framing makes it the encoder's. -/
theorem encodeOfDecode : Obligations.EncodeOfDecode := by
  intro nctx r i hwf h
  obtain ⟨hnamed, hcarries⟩ := decode_eq_cmd_iff.mp h
  have encoded := encode_eq_of_carries hwf hcarries
  have fits : r.payload.length ≤ 65535 :=
    payload_length_of_wellFormed hwf ▸ payloadLen_le r.word
  exact ⟨instr_wellFormed_iff.mpr ⟨hnamed, encoded ▸ fits⟩, encoded⟩

/-- Settles O1: the decoder evaluated on each word. -/
theorem writtenWordsDecode : Obligations.WrittenWordsDecode := by
  unfold Obligations.WrittenWordsDecode
  decide

end Sys2Proof.Proofs
end

section
/-! SUPPORT. The word primitives by number and by bit, and the byte views by offset (spec/40_word_primitives.md R110 to R132; O37, O38, O40). -/

namespace Sys2Proof.Proofs

open Sys2Proof.Machine

/-! ## The 32-bit primitives (R110 to R123) -/

/-- R114: the two shifted halves of a rotation meet at bit `32 - n`, where the source's index wraps. -/
theorem getLsbD_rotr (x : Word) {n k : Nat} (hn : n < 32) (hk : k < 32) :
    (rotr x n).getLsbD k = x.getLsbD ((k + n) % 32) := by
  rw [rotr_eq_rotateRight, BitVec.getLsbD_rotateRight, Nat.mod_eq_of_lt hn]
  by_cases hwrap : k < 32 - n
  · have source : (k + n) % 32 = n + k := by omega
    simp [hwrap, source]
  · have source : (k + n) % 32 = k - (32 - n) := by omega
    simp [hwrap, hk, source]

/-- R115: a bit from beyond bit 31 of the source is 0. -/
theorem getLsbD_shr (x : Word) (n k : Nat) :
    (shr x n).getLsbD k = if k + n ≤ 31 then x.getLsbD (k + n) else false := by
  rw [shr, BitVec.getLsbD_ushiftRight, Nat.add_comm n k]
  split
  · rfl
  · exact BitVec.getLsbD_of_ge x _ (by omega)

theorem getLsbD_choice (e f g : Word) {k : Nat} (hk : k < 32) :
    (choice e f g).getLsbD k = if e.getLsbD k then f.getLsbD k else g.getLsbD k := by
  simp only [BitVec.getLsbD_eq_getElem hk]
  cases he : e[k] <;> simp [choice, he]

theorem getLsbD_majority (a b c : Word) (k : Nat) : (majority a b c).getLsbD k = true ↔
    2 ≤ (a.getLsbD k).toNat + (b.getLsbD k).toNat + (c.getLsbD k).toNat := by
  cases ha : a.getLsbD k <;> cases hb : b.getLsbD k <;> cases hc : c.getLsbD k <;>
    simp [majority, ha, hb, hc]

/-- Settles O37: each primitive by number or by bit. -/
theorem primitivesBitByBit : Obligations.PrimitivesBitByBit :=
  ⟨BitVec.toNat_add, fun x n k hn hk => ⟨getLsbD_rotr x hn hk, getLsbD_shr x n k⟩,
    fun e f g _ hk => getLsbD_choice e f g hk, fun a b c k _ => getLsbD_majority a b c k⟩

/-- Settles O38: `rotr` is the library's rotation and `shr` its zero-filling shift. -/
theorem sigmaFunctions : Obligations.SigmaFunctions := by
  intro x
  simp only [sigma0, sigma1, bigSigma0, bigSigma1, rotr_eq_rotateRight, shr, and_self]

/-! ## The byte views (R130 to R132) -/

/-- Two bit strings side by side, by number. -/
theorem toNat_append_eq_add {m n : Nat} (x : BitVec m) (y : BitVec n) :
    (x ++ y).toNat = x.toNat * 2 ^ n + y.toNat := by
  rw [BitVec.toNat_append, ← Nat.shiftLeft_add_eq_or_of_lt y.isLt, Nat.shiftLeft_eq]

theorem toNat_wordOfBytes (b0 b1 b2 b3 : Byte) : (wordOfBytes b0 b1 b2 b3).toNat =
    b0.toNat * 2 ^ 24 + b1.toNat * 2 ^ 16 + b2.toNat * 2 ^ 8 + b3.toNat := by
  simp only [wordOfBytes, toNat_append_eq_add]
  omega

/-- R130: the load reads the four offsets from `4i` on, whatever they are called. -/
theorem be32Load_eq_wordOfBytes (m : Memory) (i : Fin 16) {k : Nat → Fin 64}
    (hk : ∀ j, j < 4 → (k j).val = 4 * i.val + j) :
    be32Load m i = wordOfBytes (m.read (k 0)) (m.read (k 1)) (m.read (k 2)) (m.read (k 3)) := by
  have offset (j : Nat) (hj : j < 4) : k j = ⟨4 * i.val + j, by omega⟩ := Fin.ext (hk j hj)
  rw [offset 0 (by decide), offset 1 (by decide), offset 2 (by decide), offset 3 (by decide)]
  rfl

/-- R131 at every offset: from 56 on, byte `63 - o` of the stored value counted from its low end. -/
theorem read_be64Store_eq_ite (m : Memory) (v : DWord) (o : Fin 64) : (be64Store m v).read o =
    if 56 ≤ o.val then v.extractLsb' (8 * (63 - o.val)) 8 else m.read o := by
  obtain ⟨kept, written⟩ := read_be64Store m v
  split
  · next ho =>
    obtain ⟨j, rfl⟩ : ∃ j : Fin 8, o = lenOffset j :=
      ⟨⟨o.val - 56, by omega⟩, Fin.ext (by simp only [lenOffset, Config.padOffset]; omega)⟩
    have low : 8 * (63 - (lenOffset j).val) = 56 - 8 * j.val := by
      simp only [lenOffset, Config.padOffset]; omega
    rw [written, low, byteOfDWord]
  · next ho => exact kept o (by omega)

@[simp] theorem length_bytesOfWord (w : Word) : (bytesOfWord w).length = 4 := rfl

theorem bytesOfWord_getElem? (w : Word) {k : Nat} (hk : k < 4) :
    (bytesOfWord w)[k]? = some (w.extractLsb' (24 - 8 * k) 8) := by
  interval_cases k <;> rfl

/-- Words laid out four bytes each: word `j` starts at offset `4j`. -/
theorem flatMap_bytesOfWord_getElem? {ws : List Word} {j k : Nat} {w : Word} (hk : k < 4)
    (hw : ws[j]? = some w) :
    (ws.flatMap bytesOfWord)[4 * j + k]? = some (w.extractLsb' (24 - 8 * k) 8) := by
  induction ws generalizing j with
  | nil => simp at hw
  | cons u ws ih =>
    rw [List.flatMap_cons]
    cases j with
    | zero =>
      obtain rfl : u = w := by simpa using hw
      rw [List.getElem?_append_left (by simp; omega), Nat.mul_zero, Nat.zero_add,
        bytesOfWord_getElem? u hk]
    | succ j =>
      have past : 4 * (j + 1) + k - (bytesOfWord u).length = 4 * j + k := by simp; omega
      rw [List.getElem?_append_right (by simp; omega), past]
      exact ih (by simpa using hw)

theorem digestBytes_eq_flatMap (h : Words) : digestBytes h = h.toList.flatMap bytesOfWord := rfl

/-- Settles O40: the load, the length store and the digest, each from its own lemma. -/
theorem byteViewsAreBigEndian : Obligations.ByteViewsAreBigEndian := by
  refine ⟨fun m i k hk => ?_, read_be64Store_eq_ite, fun h => ⟨rfl, fun j k w _ hk hw => ?_⟩⟩
  · rw [be32Load_eq_wordOfBytes m i hk, toNat_wordOfBytes]
  · rw [digestBytes_eq_flatMap, flatMap_bytesOfWord_getElem? hk hw]

end Sys2Proof.Proofs
end

section
/-! SUPPORT. The compression kernel: the round constants as cube roots (O39), the finished schedule (O42), a round (O43), PROCESS against the just-in-time datapath (O44), and commands on equal contexts (O36). -/

namespace Sys2Proof.Proofs

open Sys2Proof.Machine

/-! ## PROCESS (spec/41_compression_kernel.md R143 to R152) -/

/-- Settles O44: the registers after PROCESS's rounds are the just-in-time datapath's (`compress_regs`). -/
theorem processIsJustInTimeCompression : Obligations.ProcessIsJustInTimeCompression := by
  intro x k
  simp only [process, compress_regs]
  rfl

theorem length_wordsOf_bytes (m : Memory) : (Reference.wordsOf m.bytes).length = 16 := by
  simp [wordsOf_bytes]

/-- R143: the sliding window starts as the sixteen block words. -/
theorem windowWord_eq_be32Load (m : Memory) (i : Fin 16) :
    windowWord (Reference.wordsOf m.bytes) i.val = be32Load m i := by
  rw [windowWord_of_lt (length_wordsOf_bytes m) i.isLt]
  simp [wordsOf_bytes, List.getD_eq_getElem?_getD]

/-- Settles O42: the finished schedule is the sequence the sliding window lets go, which starts as the block words do and obeys the recurrence. -/
theorem scheduleRecurrence : Obligations.ScheduleRecurrence := by
  rintro m w0 w rfl
  refine ⟨fun i => ?_, fun i hi h => ?_⟩
  · rw [schedule_getElem, windowWord_eq_be32Load]
  · obtain ⟨t, rfl⟩ := Nat.exists_eq_add_of_le hi
    have recurrence := windowWord_add_sixteen (length_wordsOf_bytes m) t
    simp only [schedule_getElem, show 16 + t - 2 = 14 + t by omega, show 16 + t - 7 = 9 + t by omega,
      show 16 + t - 15 = 1 + t by omega, Nat.add_sub_cancel_left, recurrence]

/-- Settles O43: the temporaries are `roundT1` and `roundT2`. -/
theorem roundRotatesTheRegisters : Obligations.RoundRotatesTheRegisters :=
  fun r k w => ⟨roundT1 r k w, roundT2 r, rfl, rfl, rfl⟩

/-! ## The round constants (spec/41_compression_kernel.md R141) -/

/-- The members of `p` below `n`, in order, are the first that `Nat.nth` counts. -/
theorem nth_eq_of_filter_range {p : Nat → Prop} [DecidablePred p] {n i a : Nat}
    (h : ((List.range n).filter p)[i]? = some a) : Nat.nth p i = a := by
  induction n with
  | zero => simp at h
  | succ n ih =>
    have count : ((List.range n).filter p).length = Nat.count p n := by
      rw [Nat.count, List.countP_eq_length_filter]
    rw [List.range_succ, List.filter_append, List.getElem?_append] at h
    split at h
    · exact ih h
    next past =>
      by_cases hn : p n
      · have last : i - Nat.count p n = 0 ∧ n = a := by
          simpa [hn, count, List.getElem?_singleton] using h
        obtain ⟨hi, rfl⟩ := last
        rw [show i = Nat.count p n by omega, Nat.nth_count hn]
      · simp [hn] at h

/-- Trial division below `k` decides primality below `k * k`. -/
theorem prime_iff_of_lt_mul_self {n k : Nat} (h : n < k * k) :
    n.Prime ↔ 2 ≤ n ∧ ∀ m < k, 2 ≤ m → m * m ≤ n → ¬ m ∣ n := by
  simp only [Nat.prime_def_le_sqrt, Nat.le_sqrt]
  refine and_congr_right fun _ => ⟨fun hp m _ => hp m, fun hp m two le => hp m ?_ two le⟩
  exact Nat.mul_self_lt_mul_self_iff.mp (le.trans_lt h)

/-- R141: the table's primes are all those below 312, in order. -/
theorem roundTable_map_fst : roundTable.map Prod.fst = (List.range 312).filter Nat.Prime := by
  have trial : (List.range 312).filter Nat.Prime = (List.range 312).filter
      fun n => 2 ≤ n ∧ ∀ m < 18, 2 ≤ m → m * m ≤ n → ¬ m ∣ n :=
    List.filter_congr fun n hn => decide_eq_decide.mpr
      (prime_iff_of_lt_mul_self ((List.mem_range.mp hn).trans (by decide)))
  rw [trial]
  decide +kernel

@[simp] theorem roundTable_length : roundTable.length = 64 := rfl

theorem nth_prime_eq_roundTable (i : Fin 64) : Nat.nth Nat.Prime i.val = roundTable[i.val].1 := by
  refine nth_eq_of_filter_range (n := 312) ?_
  rw [← roundTable_map_fst]
  simp

theorem roundConstant_eq_roundTable (i : Fin 64) : roundConstant i = roundTable[i.val].2 :=
  List.getElem_map Prod.snd

/-- Settles O39: row `i` holds the `i`-th prime and the fraction of its cube root. -/
theorem roundConstantsAreCubeRoots : Obligations.RoundConstantsAreCubeRoots := by
  intro i
  obtain ⟨q, -, below, above⟩ := roundTable_fraction roundTable[i.val] (List.getElem_mem _)
  rw [nth_prime_eq_roundTable, roundConstant_eq_roundTable]
  refine ⟨_, below, above, ?_⟩
  rw [Nat.mul_add_mod_self_right, Nat.mod_eq_of_lt (BitVec.isLt _)]

/-! ## Equal contexts (spec/42_engine_commands.md R179) -/

/-- Two commands that each write the context they read, and do the same to any context. -/
structure DoAlike (i j : Instr) : Prop where
  target_left  : i.target = i.ctx
  target_right : j.target = j.ctx
  error        : commandError i = commandError j
  effect       : commandEffect i = commandEffect j

theorem exec_alike {i j : Instr} (h : DoAlike i j) {s t u : State} {x : Context}
    (hi : s.ctx? i.ctx = some x) (hj : s.ctx? j.ctx = some x)
    (ht : exec i s = .next t) (hu : exec j s = .next u) :
    t.ctx? i.ctx = u.ctx? j.ctx ∧ t.responses = u.responses ∧ t.kernel = u.kernel := by
  obtain ⟨target_i, target_j, herror, heffect⟩ := h
  have hi' := target_i ▸ hi
  have hj' := target_j ▸ hj
  cases he : commandError i x with
  | some e =>
    rw [exec_of_error hi hi' he] at ht
    rw [exec_of_error hj hj' (herror ▸ he)] at hu
    cases ht
    cases hu
    exact ⟨hi.trans hj.symm, rfl, rfl⟩
  | none =>
    rw [exec_of_success hi hi' he] at ht
    rw [exec_of_success hj hj' (herror ▸ he)] at hu
    cases ht
    cases hu
    rw [← target_i, ← target_j, succeeded_ctx?_target i s x hi', succeeded_ctx?_target j s x hj']
    simp [heffect]

/-- Settles O36: each of the five commands does alike on `a` and on `b`. -/
theorem equalContextsAnswerAlike : Obligations.EqualContextsAnswerAlike := by
  intro s t u a b x i j ha hb hij ht hu
  have alike : DoAlike i j ∧ i.ctx = a ∧ j.ctx = b := by
    obtain ⟨rfl, rfl⟩ | ⟨ty, d, rfl, rfl⟩ | ⟨n, rfl, rfl⟩ | ⟨rfl, rfl⟩ | ⟨rfl, rfl⟩ := hij
    all_goals exact ⟨⟨rfl, rfl, rfl, rfl⟩, rfl, rfl⟩
  obtain ⟨alike, rfl, rfl⟩ := alike
  exact exec_alike alike ha hb ht hu

end Sys2Proof.Proofs
end

section
/-! SUPPORT. What each command does to a context that exists (O15, O16, O18 to O22), the length field and the extra block of finalization (O45, O46), the command a step runs (O2), and the lifecycle table (O28). -/

namespace Sys2Proof.Proofs

open Sys2Proof.Machine

/-! ## The command cycle (spec/42_engine_commands.md R170) -/

/-- Settles O2: the decoder looks at the number of contexts alone, which taking the request leaves. -/
theorem stepRunsTheDecodedCommand : Obligations.StepRunsTheDecodedCommand := by
  intro s r rest i hin hwf hdecode
  rw [step_of_wellFormed hin hwf, runRequest, withInputs_nctx, hdecode]

/-! ## A command that succeeds -/

/-- A command that writes its target as it was changes no context. -/
theorem succeeded_ctxs_of_same {i : Instr} {s : State} {x : Context}
    (h : s.ctx? i.target = some (commandEffect i (x, s.kernel)).1) :
    (succeeded i s x).ctxs = s.ctxs := by
  have same := congrArg State.ctxs (setCtx_same h)
  rwa [setCtx_ctxs] at same

/-- Settles O15: the effect of CREATE is the fresh context. -/
theorem createMakesAFreshContext : Obligations.CreateMakesAFreshContext := fun s c x hx =>
  ⟨succeeded (.create c) s x, Context.created, exec_of_success hx hx rfl,
    succeeded_ctx?_target (.create c) s x hx, rfl, read_zeroed, rfl, rfl, rfl, rfl, rfl, rfl,
    succeeded_onlyTouches (.create c) s x⟩

/-- Settles O21: the effect of CLONE is the source context. -/
theorem cloneCopiesTheContext : Obligations.CloneCopiesTheContext := by
  intro s src dst x z hx hz
  have copied := succeeded_ctx?_target (.clone src dst) s x hz
  have frame := succeeded_onlyTouches (.clone src dst) s x
  refine ⟨succeeded (.clone src dst) s x, exec_of_success hx hz rfl, copied, ?_, ?_, rfl, rfl, frame⟩
  · obtain rfl | distinct := eq_or_ne src dst
    · exact copied
    · obtain ⟨-, -, untouched⟩ := frame
      rw [untouched src distinct, hx]
  · rintro rfl
    exact succeeded_ctxs_of_same (i := .clone src src) hx

/-! ## DESTROY (R180) -/

/-- A destroyed context is zero between commands, so scrubbing it again changes nothing. -/
theorem scrub_of_destroyed {x : Context} (h : x.Inv) (dead : x.des = true) : x.scrub = x := by
  obtain ⟨-, -, zeroed⟩ := h
  obtain ⟨hh, hbuf⟩ := zeroed dead
  obtain ⟨words, buf, pos, tlen, fin, des⟩ := x
  cases hh
  cases hbuf
  cases dead
  rfl

/-- R178, R180: the scrub leaves no running word and no buffer byte. -/
theorem scrub_zero (x : Context) :
    x.scrub.h.toList = List.replicate 8 0 ∧ ∀ k, x.scrub.buf.read k = 0 := by
  rw [scrub_h, scrub_buf]
  exact ⟨rfl, read_zeroed⟩

/-- R212: UPDATE, DIGEST_INTO and DIGEST answer Destroyed on a destroyed context, whatever else is wrong. -/
theorem exec_of_destroyed {s : State} {c : CtxIx} {x : Context} (hx : s.ctx? c = some x)
    (dead : x.des = true) {i : Instr}
    (hi : (∃ ty d, i = .update c ty d) ∨ (∃ n, i = .digestInto c n) ∨ i = .digest c) :
    exec i s = .next (s.respond .destroyed []) := by
  obtain ⟨ty, d, rfl⟩ | ⟨n, rfl⟩ | rfl := hi
  · exact exec_of_error hx hx (by rw [commandError_update, if_pos dead])
  · exact exec_of_error hx hx (by rw [commandError_digestInto, if_pos dead])
  · exact exec_of_error hx hx (by rw [commandError_digest, if_pos dead])

/-- Settles O22: the effect of DESTROY is the scrubbed context, which is destroyed. -/
theorem destroyScrubsTheContext : Obligations.DestroyScrubsTheContext := by
  intro s c x hx
  have scrubbed := succeeded_ctx?_target (.destroy c) s x hx
  obtain ⟨h_zero, buf_zero⟩ := scrub_zero x
  refine ⟨succeeded (.destroy c) s x, x.scrub, exec_of_success hx hx rfl, scrubbed, h_zero,
    buf_zero, scrub_des x, scrub_pos x, scrub_tlen x, scrub_fin x, rfl, rfl,
    succeeded_onlyTouches (.destroy c) s x, fun hinv dead => ?_,
    fun i => exec_of_destroyed scrubbed (scrub_des x)⟩
  have same : x.scrub = x := scrub_of_destroyed (context_inv_of_ctx? hinv hx) dead
  exact succeeded_ctxs_of_same (i := .destroy c) (hx.trans (congrArg some same.symm))

/-! ## UPDATE (R172, R173) -/

theorem commandError_update_of_active {x : Context} (live : x.des = false)
    (unfinished : x.fin = false) (c : CtxIx) (d : List Byte) :
    commandError (.update c 0 d) x = none :=
  commandError_update_eq_none.mpr ⟨live, unfinished, rfl⟩

/-- Settles O16: the effect of UPDATE is the payload absorbed block by block. -/
theorem updateAbsorbsThePayload : Obligations.UpdateAbsorbsThePayload := by
  intro s c x data hx live unfinished
  obtain ⟨blocks, left⟩ := absorb_blocks (x, s.kernel) data
  refine ⟨succeeded (.update c 0 data) s x, (updateWork (x, s.kernel) data).1,
    exec_of_success hx hx (commandError_update_of_active live unfinished c data),
    succeeded_ctx?_target (.update c 0 data) s x hx, ?_, left, ?_, ?_, ?_, ?_, rfl, ?_,
    succeeded_onlyTouches (.update c 0 data) s x⟩
  · rw [updateWork_h, blocks]
  · rw [updateWork_pos, absorb_pos]
  · simp
  · rw [updateWork_fin, unfinished]
  · rw [updateWork_des, live]
  · simp only [succeeded_kernel, commandEffect, updateWork_kernel, absorb_kernel, ← not_le, ite_not]

/-- R172: absorbing a byte neither reads nor writes TLEN. -/
theorem absorbByte_setTlen (x : Context) (k : Kernel) (n : DWord) (v : Byte) :
    absorbByte (x.setTlen n, k) v =
      ((absorbByte (x, k) v).1.setTlen n, (absorbByte (x, k) v).2) := by
  unfold absorbByte
  rw [setTlen_pos]
  split <;> rfl

theorem absorb_setTlen (x : Context) (k : Kernel) (n : DWord) (d : List Byte) :
    absorb (x.setTlen n, k) d = ((absorb (x, k) d).1.setTlen n, (absorb (x, k) d).2) := by
  induction d generalizing x k with
  | nil => rfl
  | cons v d ih => rw [absorb_cons, absorb_cons, absorbByte_setTlen, ih]

theorem setTlen_setTlen (x : Context) (n k : DWord) : (x.setTlen n).setTlen k = x.setTlen k := by
  cases x; rfl

/-- R173(a): two payloads absorbed one after the other are the joined payload absorbed. -/
theorem updateWork_append (s : Work) (a b : List Byte) :
    updateWork s (a ++ b) = updateWork (updateWork s a) b := by
  simp only [updateWork, absorb_append, absorb_setTlen, setTlen_setTlen, setTlen_tlen, absorb_tlen,
    List.length_append, BitVec.ofNat_add, BitVec.add_assoc]

/-- R173(a): after the two UPDATEs the contexts and the scratch are those of the one. -/
theorem succeeded_update_append (s : State) (c : CtxIx) (x : Context) (a b : List Byte) :
    (succeeded (.update c 0 b) (succeeded (.update c 0 a) s x) (updateWork (x, s.kernel) a).1).ctxs =
      (succeeded (.update c 0 (a ++ b)) s x).ctxs ∧
    (succeeded (.update c 0 b) (succeeded (.update c 0 a) s x) (updateWork (x, s.kernel) a).1).kernel =
      (succeeded (.update c 0 (a ++ b)) s x).kernel := by
  simp only [succeeded_ctxs, succeeded_kernel, commandEffect, Instr.target, updateWork_append,
    List.set_set, Prod.mk.eta, and_self]

/-- Settles O18: all three UPDATEs meet a live, unfinished context, and both ways leave the same contexts and scratch. -/
theorem updateIsChunkInvariant : Obligations.UpdateIsChunkInvariant := by
  intro s c x a b hx live unfinished _
  have hy := succeeded_ctx?_target (.update c 0 a) s x hx
  have hz := succeeded_ctx?_target (.update c 0 (a ++ b)) s x hx
  have live_y := (updateWork_des (x, s.kernel) a).trans live
  have unfinished_y := (updateWork_fin (x, s.kernel) a).trans unfinished
  obtain ⟨ctxs_eq, kernel_eq⟩ := succeeded_update_append s c x a b
  have alike (d : CtxIx) := congrArg (·[d.val]?) ctxs_eq
  exact ⟨_, _, _, _, _, exec_of_success hx hx (commandError_update_of_active live unfinished c a),
    exec_of_success hy hy (commandError_update_of_active live_y unfinished_y c b),
    exec_of_success hx hx (commandError_update_of_active live unfinished c (a ++ b)),
    (alike c).trans hz, hz, rfl, rfl, rfl, rfl, rfl, rfl, kernel_eq, fun d _ => alike d⟩

/-! ## Finalization (R174 to R178) -/

/-- Settles O45: the length field is the bit count, and the length store puts its bytes from offset 56 on. -/
theorem lengthFieldIsTheBitCount : Obligations.LengthFieldIsTheBitCount := by
  intro tlen
  refine ⟨by simp [lenField], lenField_eq_bitCount tlen, fun m k hk => ?_⟩
  rw [read_be64Store_eq_ite, if_pos hk, lenField_eq_bitCount]

/-- R175: the room behind the 0x80 byte is too short for the length field from offset 56 on. -/
theorem needsExtraBlock_iff (pos : Fin 64) : needsExtraBlock pos = true ↔ 63 - pos.val < 8 := by
  rw [needsExtraBlock, decide_eq_true_iff, Config.blockLen]
  omega

/-- Settles O46: the condition by number, then the operation on each side of it. -/
theorem extraBlockFromOffset56 : Obligations.ExtraBlockFromOffset56 := by
  intro s pos
  refine ⟨needsExtraBlock_iff pos, ?_, fun full => extraBlock_of_gt full s,
    fun room => extraBlock_of_le room s⟩
  rw [needsExtraBlock_iff]
  omega

/-- R174: the buffer FINALIZE leaves is what the extra block leaves, with the length field over its end. -/
theorem finalize_bytes_eq_append (s : Work) : (finalize s).1.buf.bytes =
    (extraBlock (padded s.1, s.2) s.1.pos).1.buf.bytes.take 56 ++
      Reference.bytesOfDWord (Reference.bitCount s.1.tlen) := by
  simp [finalize, bytes_be64Store, lenField_eq_bitCount]

/-- R174, R175: FINALIZE leaves the last of the final blocks in the buffer. -/
theorem getLast?_finalBlocks (s : Work) :
    (Reference.finalBlocks s.1.validBytes (Reference.bitCount s.1.tlen)).getLast? =
      some (finalize s).1.buf.bytes := by
  rw [finalize_bytes_eq_append]
  by_cases room : s.1.pos.val ≤ 55
  · simp [extraBlock_of_le room, Reference.finalBlocks, room, take_bytes_padded room]
  · simp [extraBlock_of_gt (not_le.mp room), Reference.finalBlocks, room, bytes_zeroed]

/-- Settles O19: the effect of DIGEST_INTO is the finalized context. -/
theorem digestIntoFinalizes : Obligations.DigestIntoFinalizes := by
  intro s c x outcap hx live unfinished room
  have herror : commandError (.digestInto c outcap) x = none :=
    commandError_digestInto_eq_none.mpr ⟨live, unfinished, room⟩
  refine ⟨succeeded (.digestInto c outcap) s x, (finalize (x, s.kernel)).1, _,
    exec_of_success hx hx herror, succeeded_ctx?_target (.digestInto c outcap) s x hx,
    getLast?_finalBlocks (x, s.kernel), finalize_h _, rfl, finalize_pos _, finalize_tlen _,
    finalize_fin _, (finalize_des _).trans live, ?_, rfl,
    succeeded_onlyTouches (.digestInto c outcap) s x⟩
  rw [succeeded_responses, commandEffect, digestBytes_eq_bytesOfWords]

/-- Settles O20: the effect of DIGEST is the finalized context scrubbed, its answer taken before. -/
theorem digestFinalizesAndDestroys : Obligations.DigestFinalizesAndDestroys := by
  intro s c x hx live unfinished
  have herror : commandError (.digest c) x = none :=
    commandError_digest_eq_none.mpr ⟨live, unfinished⟩
  obtain ⟨h_zero, buf_zero⟩ := scrub_zero (finalize (x, s.kernel)).1
  refine ⟨succeeded (.digest c) s x, (finalize (x, s.kernel)).1.scrub,
    exec_of_success hx hx herror, succeeded_ctx?_target (.digest c) s x hx, ?_, h_zero, buf_zero,
    (scrub_pos _).trans (finalize_pos _), (scrub_tlen _).trans (finalize_tlen _),
    (scrub_fin _).trans (finalize_fin _), scrub_des _, rfl, succeeded_onlyTouches (.digest c) s x⟩
  rw [succeeded_responses, commandEffect, digestBytes_eq_bytesOfWords, finalize_h]

/-! ## The lifecycle (R181) -/

/-- R181: a command that meets an error leaves its context's state; R217 tests DES and FIN in the order that `Context.life` does. -/
theorem lifecycleRow_of_error {i : Instr} {x : Context} {e : Code}
    (h : commandError i x = some e) : lifecycleRow i x.life = (x.life, e) := by
  unfold Context.life
  cases i with
  | update c t d => rw [commandError_update] at h; split_ifs at h ⊢ <;> simp_all [lifecycleRow]
  | digestInto c n => rw [commandError_digestInto] at h; split_ifs at h ⊢ <;> simp_all [lifecycleRow]
  | digest c => rw [commandError_digest] at h; split_ifs at h ⊢ <;> simp_all [lifecycleRow]
  | _ => cases h

theorem life_of_destroyed {x : Context} (h : x.des = true) : x.life = .dead := if_pos h

/-- R181: what a command that succeeds makes of its target. -/
theorem lifecycleRow_of_success {i : Instr} {x : Context} (h : commandError i x = none)
    (k : Kernel) : lifecycleRow i x.life = ((commandEffect i (x, k)).1.life, .ok) := by
  cases i with
  | create c => rfl
  | clone a b => rfl
  | destroy c => rw [commandEffect, life_of_destroyed (scrub_des x), lifecycleRow]
  | update c t d =>
    obtain ⟨live, unfinished, rfl⟩ := commandError_update_eq_none.mp h
    simp [commandEffect, Context.life, live, unfinished, lifecycleRow]
  | digestInto c n =>
    obtain ⟨live, unfinished, room⟩ := commandError_digestInto_eq_none.mp h
    simp [commandEffect, Context.life, live, unfinished, room, lifecycleRow]
  | digest c =>
    obtain ⟨live, unfinished⟩ := commandError_digest_eq_none.mp h
    simp [commandEffect, Context.life, live, unfinished, lifecycleRow]

/-- Settles O28: an existing target is left as it is or holds the command's effect, and the table says which. -/
theorem lifecycleFollowsItsTable : Obligations.LifecycleFollowsItsTable := by
  intro s r rest hin hwf
  refine ⟨fun i x hdecode hx => ?_, fun why hwhy => ?_⟩
  · obtain ⟨hnamed, -⟩ := decode_eq_cmd_iff.mp hdecode
    obtain ⟨z, hz⟩ := exists_ctx_of_lt (hnamed _ (target_mem_named i))
    rw [stepRunsTheDecodedCommand s r rest i hin hwf hdecode]
    cases he : commandError i x with
    | some e =>
      rw [lifecycleRow_of_error he]
      refine ⟨_, x, [], exec_of_error (s := { s with inputs := rest }) hx hz he, ?_, rfl, rfl, ?_,
        fun _ _ => rfl⟩
      · rw [target_eq_ctx_of_error he]
        exact hx
      · simp [commandError_ne_ok he]
    | none =>
      rw [lifecycleRow_of_success he s.kernel]
      refine ⟨_, _, _, exec_of_success (s := { s with inputs := rest }) hx hz he,
        succeeded_ctx?_target i _ x hz, rfl, rfl, ?_, fun d hd => succeeded_ctx?_ne i _ x d hd⟩
      simp [length_commandEffect_out]
  · obtain ⟨illegal_iff, unchanged⟩ := illegalWordChangesNothing s r rest hin hwf
    exact unchanged (illegal_iff.mp ⟨why, hwhy⟩)

end Sys2Proof.Proofs
end

section
/-! SUPPORT. The exceptions: which error a command meets (O23), that a failed command changes nothing (O26), which opcode is answered with which code (O29), and the numbers of the codes (O30). -/

namespace Sys2Proof.Proofs

open Sys2Proof.Machine

/-! ## The codes (spec/60_exceptions.md R210, R218) -/

/-- Settles O30: each code's number. -/
theorem responseCodeNumbers : Obligations.ResponseCodeNumbers := by
  refine ⟨rfl, fun code => ?_⟩
  cases code <;> decide

theorem ok_mem_canReport (op : Nat) : Code.ok ∈ canReport op := by
  unfold canReport; split <;> decide

theorem illegalCommand_mem_canReport (op : Nat) : Code.illegalCommand ∈ canReport op := by
  unfold canReport; split <;> decide

/-- R218: the errors of a command's own checks stand in its opcode's row. -/
theorem commandError_mem_canReport {i : Instr} {x : Context} {e : Code}
    (h : commandError i x = some e) : e ∈ canReport (Laws.opcode i).toNat := by
  cases i with
  | update c t d =>
    rw [commandError_update] at h
    change e ∈ canReport 2
    split_ifs at h <;> cases h <;> decide
  | digestInto c n =>
    rw [commandError_digestInto] at h
    change e ∈ canReport 3
    split_ifs at h <;> cases h <;> decide
  | digest c =>
    rw [commandError_digest] at h
    change e ∈ canReport 4
    split_ifs at h <;> cases h <;> decide
  | _ => cases h

/-! ## What an answer says of the state (R214) -/

/-- R214, R218: a command answers an error of its opcode's row and does no more, or it succeeds. -/
theorem exec_error_or_succeeded {i : Instr} {s t : State} (h : exec i s = .next t) :
    (∃ e ∈ canReport (Laws.opcode i).toNat, e ≠ .ok ∧ t = s.respond e []) ∨
      ∃ x, t = succeeded i s x := by
  obtain ⟨-, rfl⟩ | ⟨x, z, -, -, ⟨e, he, rfl⟩ | ⟨-, rfl⟩⟩ := exec_cases h
  · exact .inl ⟨_, illegalCommand_mem_canReport _, by decide, rfl⟩
  · exact .inl ⟨e, commandError_mem_canReport he, commandError_ne_ok he, rfl⟩
  · exact .inr ⟨x, rfl⟩

/-- R214, R218: the same of a step that takes a request, an illegal word counted among the errors. -/
theorem step_error_or_succeeded {s t : State} {r : Request} {rest : List Input}
    (hin : s.inputs = .request r :: rest) (h : step s = .next t) :
    (∃ e ∈ canReport (r.word.toNat % 16), e ≠ .ok ∧ t = { s with inputs := rest }.respond e []) ∨
      ∃ i x, t = succeeded i { s with inputs := rest } x := by
  obtain ⟨hnil, -⟩ | ⟨cut, rest', hreset, -⟩ | ⟨r', rest', hreq, -, hrun⟩ := step_cases h
  · rw [hin] at hnil; cases hnil
  · rw [hin] at hreset; cases hreset
  · rw [hin] at hreq
    cases hreq
    obtain ⟨why, -, rfl⟩ | ⟨i, hdecode, hexec⟩ := hrun
    · exact .inl ⟨_, illegalCommand_mem_canReport _, by decide, rfl⟩
    · rw [← opField_toNat, opField_of_decode hdecode]
      obtain failed | ⟨x, rfl⟩ := exec_error_or_succeeded hexec
      · exact .inl failed
      · exact .inr ⟨i, x, rfl⟩

/-- Settles O26: a success answers OK, and an error does no more than answer. -/
theorem failedCommandChangesNothing : Obligations.FailedCommandChangesNothing := by
  intro s t r rest a hin hstep hresponses hfailed
  obtain ⟨e, -, -, rfl⟩ | ⟨i, x, rfl⟩ := step_error_or_succeeded hin hstep
  · obtain rfl : ⟨e, []⟩ = a := by simpa using hresponses
    exact ⟨rfl, rfl⟩
  · obtain rfl : _ = a := by simpa using hresponses
    exact absurd rfl hfailed

/-! ## The errors of a command on an existing context (R212 to R217) -/

/-- R217: UPDATE, DIGEST_INTO and DIGEST test the context's flags first, whatever else is wrong. -/
theorem exec_of_lifecycleError {s : State} {c : CtxIx} {x : Context} (hx : s.ctx? c = some x)
    {e : Code} (he : x.lifecycleError = some e) {i : Instr}
    (hi : (∃ ty d, i = .update c ty d) ∨ (∃ n, i = .digestInto c n) ∨ i = .digest c) :
    exec i s = .next (s.respond e []) := by
  obtain ⟨ty, d, rfl⟩ | ⟨n, rfl⟩ | rfl := hi <;>
    exact exec_of_error hx hx (by rw [commandError, he, firstError])

theorem lifecycleError_of_finished {x : Context} (live : x.des = false) (finished : x.fin = true) :
    x.lifecycleError = some .alreadyFinalized := by
  simp [Context.lifecycleError, live, finished]

/-- R216: DIGEST has no output buffer of the host's to be too small. -/
theorem exec_digest_ne_outputBufferTooSmall {s t : State} {c : CtxIx} {out : List Byte}
    (h : exec (.digest c) s = .next t) :
    t.responses ≠ s.responses ++ [⟨.outputBufferTooSmall, out⟩] := by
  intro hresponses
  obtain ⟨e, reported, -, rfl⟩ | ⟨x, rfl⟩ := exec_error_or_succeeded h
  · obtain ⟨rfl, -⟩ : e = .outputBufferTooSmall ∧ [] = out := by simpa using hresponses
    exact absurd reported (by decide : Code.outputBufferTooSmall ∉ canReport 4)
  · simp at hresponses

/-- Settles O23: the flags first, DES before FIN; then UPDATE's and DIGEST_INTO's own checks; the other commands make no check. -/
theorem errorsInPriorityOrder : Obligations.ErrorsInPriorityOrder := by
  intro s c x hx
  refine ⟨fun dead i => exec_of_destroyed hx dead,
    fun live finished i => exec_of_lifecycleError hx (lifecycleError_of_finished live finished),
    fun live unfinished => ⟨fun t d ht => ?_, fun n hn => ?_⟩, fun i hi => ?_,
    fun t out => exec_digest_ne_outputBufferTooSmall⟩
  · exact exec_of_error hx hx (by simpa [commandError_update, live, unfinished] using ht)
  · exact exec_of_error hx hx (by simpa [commandError_digestInto, live, unfinished] using hn)
  · obtain rfl | rfl | ⟨d, z, rfl, hz⟩ := hi
    · exact ⟨_, exec_of_success hx hx rfl, rfl⟩
    · exact ⟨_, exec_of_success hx hx rfl, rfl⟩
    · exact ⟨_, exec_of_success hx hz rfl, rfl⟩

/-! ## Each code of a row is reported (R218) -/

/-- A word with this opcode is answered with this code in some state. -/
def Reported (op : Nat) (code : Code) : Prop :=
  ∃ (s t : State) (r : Request) (out : List Byte), s.inputs = [.request r] ∧
    r.word.toNat % 16 = op ∧ step s = .next t ∧ t.responses = s.responses ++ [⟨code, out⟩]

/-- A block of the one context `x` with this request at its port. -/
def oneContext (x : Context) (r : Request) : State :=
  { ctxs := [x], kernel := Kernel.zero, inputs := [.request r], responses := [] }

theorem oneContext_ctx? (x : Context) (r : Request) {c : CtxIx} (h : c.val < 1) :
    (oneContext x r).ctx? c = some x := by
  obtain rfl : c = 0 := Fin.ext (by omega)
  rfl

theorem encode_word_opcode (i : Instr) : (encode i).word.toNat % 16 = (Laws.opcode i).toNat := by
  obtain ⟨hop, -⟩ := encodedFields i
  rw [← opField_toNat, hop]

/-- R86, R91: with RSV = 1 every opcode's word is illegal. -/
theorem reported_illegalCommand {op : Nat} (h : op < 16) : Reported op .illegalCommand := by
  have number : (tableRequest 32 (16384 + op)).word.toNat = 16384 + op := by
    simp only [tableRequest, BitVec.toNat_ofNat]
    omega
  have framed : (tableRequest 32 (16384 + op)).wellFormed = true := by
    simp [tableRequest, Request.wellFormed]
  obtain ⟨-, unchanged⟩ := illegalWordChangesNothing
    (oneContext Context.reset (tableRequest 32 (16384 + op))) _ [] rfl framed
  refine ⟨_, _, _, [], rfl, by rw [number]; omega, unchanged ?_, rfl⟩
  rw [Reference.illegalWord, number]
  omega

/-- A command sent to a context `x` is answered as its checks on `x` say. -/
theorem reported_of_commandError {i : Instr} (hwf : i.wellFormed 1 = true) (x : Context) :
    Reported (Laws.opcode i).toNat ((commandError i x).getD .ok) := by
  obtain ⟨hnamed, -⟩ := instr_wellFormed_iff.mp hwf
  have hx := oneContext_ctx? x (encode i) (hnamed _ (ctx_mem_named i))
  have hz := oneContext_ctx? x (encode i) (hnamed _ (target_mem_named i))
  have taken := stepRunsTheDecodedCommand (oneContext x (encode i)) _ [] i rfl
    (wellFormed_encode hwf) (decode_encode hwf)
  cases he : commandError i x with
  | none =>
    exact ⟨_, _, _, _, rfl, encode_word_opcode i, taken.trans (exec_of_success hx hz he), rfl⟩
  | some e =>
    exact ⟨_, _, _, _, rfl, encode_word_opcode i, taken.trans (exec_of_error hx hz he), rfl⟩

/-- A context on which a command can be answered with the code. -/
def contextFor : Code → Context
  | .destroyed => Context.reset
  | .alreadyFinalized => Context.created.markFinished
  | _ => Context.created

/-- A command of the opcode that is answered with the code on `contextFor` it, if the opcode's row has it. -/
def commandFor (op : Nat) (code : Code) : Instr :=
  match op with
  | 1 => .create 0
  | 2 => .update 0 (if code = .invalidInputType then 1 else 0) []
  | 3 => .digestInto 0 (if code = .outputBufferTooSmall then 31 else 32)
  | 4 => .digest 0
  | 5 => .clone 0 0
  | _ => .destroy 0

theorem commandFor_wellFormed (op : Nat) (code : Code) :
    (commandFor op code).wellFormed 1 = true := by
  unfold commandFor; split <;> rfl

theorem opcode_commandFor {op : Nat} (least : 1 ≤ op) (most : op ≤ 6) (code : Code) :
    (Laws.opcode (commandFor op code)).toNat = op := by
  interval_cases op <;> rfl

/-- R218: the commands above meet every error of every row. -/
theorem commandError_commandFor {op : Nat} (least : 1 ≤ op) (most : op ≤ 6) {code : Code}
    (reported : code ∈ canReport op) (legal : code ≠ .illegalCommand) :
    (commandError (commandFor op code) (contextFor code)).getD .ok = code := by
  have rows : ∀ op ∈ List.range' 1 6, ∀ code ∈ canReport op, code ≠ .illegalCommand →
      (commandError (commandFor op code) (contextFor code)).getD .ok = code := by decide
  exact rows op (List.mem_range'_1.mpr ⟨least, by omega⟩) code reported legal

/-- Settles O29: a step answers OK or an error of the row, and each code of the row has its command and context. -/
theorem codesEachCommandCanReport : Obligations.CodesEachCommandCanReport := by
  intro op code least most
  constructor
  · intro reported
    obtain rfl | legal := eq_or_ne code .illegalCommand
    · exact reported_illegalCommand (by omega)
    · have answered := reported_of_commandError (commandFor_wellFormed op code) (contextFor code)
      rwa [opcode_commandFor least most, commandError_commandFor least most reported legal]
        at answered
  · rintro ⟨s, t, r, out, hin, rfl, hstep, hresponses⟩
    obtain ⟨e, reported, -, rfl⟩ | ⟨i, x, rfl⟩ := step_error_or_succeeded hin hstep
    · obtain ⟨rfl, -⟩ : e = code ∧ [] = out := by simpa using hresponses
      exact reported
    · obtain ⟨rfl, -⟩ : Code.ok = code ∧ _ = out := by simpa using hresponses
      exact ok_mem_canReport _

end Sys2Proof.Proofs
end

section
/-! SUPPORT. Reset and progress: the first command after reset (O12), and that every command and every step but a malformed request's answers a next state (O27). -/

namespace Sys2Proof.Proofs

open Sys2Proof.Machine

/-! ## Every command completes (spec/70_reset_and_hazards.md R246) -/

/-- The model's choice, log 2: at an empty port the block waits. -/
theorem step_of_empty {s : State} (hin : s.inputs = []) : step s = .next s := by
  simp only [step, hin]

/-- R95: a request whose payload is not the one its word announces has no step. -/
theorem step_of_malformed {s : State} {r : Request} {rest : List Input}
    (hin : s.inputs = .request r :: rest) (hwf : r.wellFormed = false) :
    step s = .refused .malformedRequest := by
  simp [step, hin, hwf]

/-- Settles O27: a command is its change made to its target, and the oldest input says what a step does. -/
theorem everyCommandCompletes : Obligations.EveryCommandCompletes := by
  refine ⟨fun i s => ⟨_, exec_eq_apply i s⟩, fun s => ?_⟩
  cases hin : s.inputs with
  | nil => exact .inr ⟨s, step_of_empty hin⟩
  | cons input rest =>
    cases input with
    | reset cut => exact .inr ⟨_, step_of_reset hin⟩
    | request r =>
      cases hwf : r.wellFormed with
      | true => exact .inr (exists_step_of_wellFormed hin hwf)
      | false => exact .inl (step_of_malformed hin hwf)

/-! ## The first command after reset (spec/70_reset_and_hazards.md R241, R242) -/

/-- R241: every context of a block in its reset state is the reset context. -/
theorem resetWith_ctx? {nctx : Nat} {c : CtxIx} (h : c.val < nctx) :
    (State.resetWith nctx).ctx? c = some Context.reset :=
  List.getElem?_replicate_of_lt h

/-- Settles O12: the reset context is destroyed, and CREATE of an existing context leaves it live and unfinished. -/
theorem contextsAreDeadAfterReset : Obligations.ContextsAreDeadAfterReset := by
  intro nctx c hc
  have hreset := resetWith_ctx? hc
  refine ⟨fun i => exec_of_destroyed hreset rfl, ?_⟩
  obtain ⟨t, x, hexec, hx, -, -, -, -, unfinished, live, -⟩ :=
    createMakesAFreshContext (State.resetWith nctx) c Context.reset hreset
  exact ⟨t, x, hexec, hx, life_eq_active_iff.mpr ⟨live, unfinished⟩⟩

end Sys2Proof.Proofs
end

section
/-! SUPPORT. The model's choices: a canonical buffer is its 64 bytes (log 4, O41), an empty port waits (log 2, O5), and a command on a missing context is illegal (log 6, O24). -/

namespace Sys2Proof.Proofs

open Sys2Proof.Machine

/-! ## A canonical buffer is its bytes (spec/20_memory.md section 1) -/

/-- With rising offsets no earlier cell hides a listed one. -/
theorem read_of_mem {m : Memory} (rising : m.Pairwise (fun x y => x.1 < y.1)) {k : Fin 64} {v : Byte}
    (listed : (k.val, v) ∈ m) : m.read k = v := by
  induction m with
  | nil => cases listed
  | cons cell m ih =>
    obtain ⟨a, w⟩ := cell
    obtain ⟨first, rest⟩ := List.pairwise_cons.mp rising
    obtain here | later := List.mem_cons.mp listed
    · cases here
      simp [Memory.read]
    · have below : a < k.val := first _ later
      simp [Memory.read, below.ne, ih rest later]

/-- A byte that does not read as 0x00 is listed. -/
theorem mem_of_read_ne_zero {m : Memory} {k : Fin 64} (nonzero : m.read k ≠ 0) :
    (k.val, m.read k) ∈ m := by
  induction m with
  | nil => exact absurd rfl nonzero
  | cons cell m ih =>
    obtain ⟨a, w⟩ := cell
    by_cases here : a = k.val
    · simp [Memory.read, here]
    · simp only [Memory.read, here, if_false] at nonzero ⊢
      exact List.mem_cons_of_mem _ (ih nonzero)

/-- A canonical buffer lists exactly the bytes other than 0x00 that it reads. -/
theorem mem_iff_read {m : Memory} (hwf : m.wf = true) {x : Host.Cell} :
    x ∈ m ↔ x.2 ≠ 0 ∧ ∃ k : Fin 64, k.val = x.1 ∧ m.read k = x.2 := by
  obtain ⟨rising, cells⟩ := (wf_iff m).mp hwf
  constructor
  · intro listed
    obtain ⟨inside, nonzero⟩ := cells x listed
    exact ⟨nonzero, ⟨x.1, inside⟩, rfl, read_of_mem rising listed⟩
  · obtain ⟨a, v⟩ := x
    rintro ⟨nonzero, k, rfl, rfl⟩
    exact mem_of_read_ne_zero nonzero

theorem read_eq_of_bytes_eq {m n : Memory} (h : m.bytes = n.bytes) : m.read = n.read :=
  funext fun k => List.map_inj_left.mp h k (List.mem_finRange k)

/-- Settles O41: the buffers list the same cells, and a list in rising order is determined by its members. -/
theorem canonicalBuffersAreTheirBytes : Obligations.CanonicalBuffersAreTheirBytes := by
  intro m n hm hn hbytes
  have same (x : Host.Cell) : x ∈ m ↔ x ∈ n := by
    rw [mem_iff_read hm, mem_iff_read hn, read_eq_of_bytes_eq hbytes]
  have asymm : Std.Asymm fun x y : Host.Cell => x.1 < y.1 := ⟨fun _ _ => Nat.lt_asymm⟩
  exact ((wf_iff m).mp hm).1.eq_of_mem_iff ((wf_iff n).mp hn).1 same

/-! ## An empty port (spec/60_exceptions.md sections 3 and 4) -/

/-- Settles O5: the empty port's case of `step`. -/
theorem emptyPortWaits : Obligations.EmptyPortWaits :=
  fun _ => step_of_empty

/-! ## A missing context (spec/30_encoding.md section 2) -/

theorem ctx?_eq_none_of_le {s : State} {c : CtxIx} (h : s.nctx ≤ c.val) : s.ctx? c = none :=
  List.getElem?_eq_none h

/-- A command names the context CTX and the one it writes, and no other. -/
theorem mem_named_iff {i : Instr} {c : CtxIx} : c ∈ i.named ↔ c = i.ctx ∨ c = i.target := by
  cases i <;> simp [Instr.named, Instr.ctx, Instr.target]

/-- Settles O24: the context named is CTX's or the target, and without either `exec` answers IllegalCommand. -/
theorem missingContextIsIllegal : Obligations.MissingContextIsIllegal := by
  intro s i c hnamed hle
  have missing : s.ctx? c = none := ctx?_eq_none_of_le hle
  obtain rfl | rfl := mem_named_iff.mp hnamed
  · exact exec_of_missing (.inl missing)
  · exact exec_of_missing (.inr missing)

end Sys2Proof.Proofs
end
